-- ==== Sys2Proof/Word.lean ====
section
/-!
DEFINITION. The two widths of the LEB128 codec: a byte of the host's memory (R9, R42) and the 32-bit value (R4, R10).
-/

namespace Sys2Proof

/-- One byte of memory, or the command byte (R9: "A byte is 8 bits, `b[7:0]`"). -/
abbrev Byte := BitVec 8

/-- A decoded or encoded value: "The value width is fixed at 32 bits" (R4). It is read unsigned (u32) or in two's
complement (i32); both are the same object (R10). -/
abbrev Word := BitVec 32

end Sys2Proof
end

