-- ==== Sys2Proof/Syntax.lean ====
section
/-!
DEFINITION. The six operations of the codec (R2), one constructor per row of spec/opcode_table.json. The command
byte carries no operand but the limit-present bit `LIM` (R60, R65): `CURSOR`, `LIMIT` and `VALUE` come whole from the
request record (Sys2Proof/Machine/Request.lean).
-/

namespace Sys2Proof

/-- The operations, in the source's order (R2, R61). `lim` is `CMD[3]`: 1 when `LIMIT` bounds a checked decode
(R62). Every term is an instruction: the six operations and the two values of `lim` give exactly the eight legal
command bytes of R61. -/
inductive Instr where
  /-- DECU: decode unsigned, unchecked (R82). -/
  | decu
  /-- DECS: decode signed, unchecked (R83). -/
  | decs
  /-- DECUC: decode unsigned, checked (R100). -/
  | decuc (lim : Bool)
  /-- DECSC: decode signed, checked (R101). -/
  | decsc (lim : Bool)
  /-- ENCU: encode unsigned (R120). -/
  | encu
  /-- SIZEU: encoded size, unsigned (R121). -/
  | sizeu
deriving DecidableEq, Repr

end Sys2Proof
end

