-- ==== Sys2Proof/Decode.lean ====
section
/-!
DEFINITION. The command byte: its decoder (R60 to R64), total on all 256 values and rejecting by name, and its
encoder, written from the same table (R61).
-/

namespace Sys2Proof

/-- Why a command byte is illegal, in the three groups of R63. The codec reports all three as one model fault,
`IllegalCommand(CMD)` (R142). -/
inductive DecodeReject where
  /-- "any value with `CMD[7:4] != 0`". -/
  | reservedBits
  /-- "`OP = 110` or `OP = 111`, whatever `LIM` holds". -/
  | reservedOp
  /-- "`LIM = 1` with `OP` in `{000, 001, 100, 101}`". -/
  | limitNotAllowed
deriving DecidableEq, Repr

/-- `OP`, `CMD[2:0]` (R60). -/
def cmdOp (cmd : Byte) : BitVec 3 := cmd.extractLsb' 0 3

/-- `LIM`, `CMD[3]` (R60). -/
def cmdLim (cmd : Byte) : Bool := cmd.getLsbD 3

/-- The reserved field `CMD[7:4]` (R60). -/
def cmdReserved (cmd : Byte) : BitVec 4 := cmd.extractLsb' 4 4

/-- An operation for which `LIM` must be 0 (R61). -/
def unlimited (lim : Bool) (i : Instr) : Except DecodeReject Instr :=
  if lim then .error .limitNotAllowed else .ok i

/-- `Decode(CMD)` of R64. -/
def decode (cmd : Byte) : Except DecodeReject Instr :=
  if cmdReserved cmd ≠ 0#4 then .error .reservedBits
  else
    match (cmdOp cmd).toNat with
    | 0 => unlimited (cmdLim cmd) .decu
    | 1 => unlimited (cmdLim cmd) .decs
    | 2 => .ok (.decuc (cmdLim cmd))
    | 3 => .ok (.decsc (cmdLim cmd))
    | 4 => unlimited (cmdLim cmd) .encu
    | 5 => unlimited (cmdLim cmd) .sizeu
    | _ => .error .reservedOp

/-- The command byte from its fields (R60): `0000`, `LIM`, `OP`. -/
def cmdOf (lim : Bool) (op : BitVec 3) : Byte :=
  0#4 ++ BitVec.ofBool lim ++ op

/-- The command byte of an operation, by the table of R61. -/
def encode : Instr → Byte
  | .decu => cmdOf false 0#3
  | .decs => cmdOf false 1#3
  | .decuc lim => cmdOf lim 2#3
  | .decsc lim => cmdOf lim 3#3
  | .encu => cmdOf false 4#3
  | .sizeu => cmdOf false 5#3

/-- The instruction the decoder reads from a word of spec/opcode_table.json: `nbits` bits of `w`. "The command byte
has one format and one length" (R60), so bits above bit 7 that are set make no command. -/
def decodeTableWord (nbits w : Nat) : Option Instr :=
  if w % 2 ^ nbits < 256 then
    match decode (BitVec.ofNat 8 (w % 2 ^ nbits)) with
    | .ok i => some i
    | .error _ => none
  else none

end Sys2Proof
end

