-- ==== Sys2Proof/Machine/Operands.lean ====
section
/-!
DEFINITION. The operand fields of an encoded byte (R66, R69), the placement of a group in the value (R69), the sign
extension of the signed decodes (R81) and the bytes the encoder emits (R120).
-/

namespace Sys2Proof.Machine

/-- The group payload `b[6:0]` (R66). -/
def payload (b : Byte) : BitVec 7 := b.extractLsb' 0 7

/-- The continuation bit `b[7]` (R66). -/
def continues (b : Byte) : Bool := b.getLsbD 7

/-- The part of the fifth byte that reaches the value, `b4[3:0]` (R69). -/
def lowNibble (b : Byte) : BitVec 4 := b.extractLsb' 0 4

/-- The part of the fifth byte that does not reach the value, `b4[7:4]` (R69). -/
def highNibble (b : Byte) : BitVec 4 := b.extractLsb' 4 4

/-- `acc | (zext_32(b[6:0]) << (7*i))`, for bytes 0 to 3 (R80). -/
def placeGroup (acc : Word) (i : Nat) (b : Byte) : Word :=
  acc ||| ((payload b).setWidth 32 <<< (7 * i))

/-- `acc | (zext_32(b[3:0]) << 28)`, for byte 4 (R80). -/
def placeLast (acc : Word) (b : Byte) : Word :=
  acc ||| ((lowNibble b).setWidth 32 <<< 28)

/-- `SignExtendGroups(acc, N)` (R81): a shift left then an arithmetic shift right by `32 - 7*N`, none for `N = 5`. -/
def signExtendGroups (acc : Word) (n : Nat) : Word :=
  if n = 5 then acc
  else (acc <<< (32 - 7 * n)).sshiftRight (32 - 7 * n)

/-- "remaining magnitude fits in 7 bits" (R120). -/
def fitsGroup (rem : Word) : Bool := decide (rem >>> 7 = 0#32)

/-- `rem[7:0]`, the last byte of an encoding (R120): bit 7 is 0 where `rem` fits in 7 bits. -/
def lastByte (rem : Word) : Byte := rem.extractLsb' 0 8

/-- `0x80 | rem[6:0]`, a byte with the continuation bit set (R120). -/
def moreByte (rem : Word) : Byte := 0x80#8 ||| (rem.extractLsb' 0 7).setWidth 8

end Sys2Proof.Machine
end

