-- ==== Sys2Proof/Machine/Request.lean ====
section
/-!
DEFINITION. The request record the host presents (R23) and the moves of the host agent (R20, R169).
-/

namespace Sys2Proof.Machine

/-- A request: "All fields are presented together" (R23). `CURSOR` and `LIMIT` are unsigned ADDR_WIDTH-bit addresses
used as naturals (R65, R11); that they fit is `Request.wellFormed`. -/
structure Request where
  /-- `CMD`, 8 bits (R60). -/
  cmd : Byte
  /-- `CURSOR`, ADDR_WIDTH bits. -/
  cursor : Nat
  /-- `LIMIT`, ADDR_WIDTH bits, read by DECUC and DECSC only when `LIM = 1`. -/
  limit : Nat
  /-- `VALUE`, 32 bits, read by ENCU and SIZEU. -/
  value : Word
deriving DecidableEq, Repr

/-- What the host agent may do (R20, R169). A host read of memory or of the response changes nothing, so it is no
move. -/
inductive HostMove where
  /-- Present a request (R169 "issue a request"). -/
  | request (r : Request)
  /-- Store a byte in its own memory between requests (R20, R22). -/
  | write (a : Nat) (b : Byte)
  /-- Reset the codec (R160, R169 "reset at any time"). -/
  | reset
  /-- Present a request and reset the codec while it is `Busy` with it (R161). -/
  | resetDuring (r : Request)
deriving DecidableEq, Repr

end Sys2Proof.Machine
end

