-- ==== Sys2Proof/Machine/Flags.lean ====
section
/-!
DEFINITION. `OK`, "the block's only status flag" (R25): the two checks of a checked decode that clear it (R102, R103).
-/

namespace Sys2Proof.Machine

/-- `InvalidEncoding.PastLimit` (R141): with `LIM = 1`, the next byte's address is not strictly less than `LIMIT`
(R102). The comparison is on unsigned naturals. -/
def pastLimit (checked lim : Bool) (r : Request) (a : Nat) : Bool :=
  checked && lim && decide (r.limit ≤ a)

/-- `InvalidEncoding.BadFinalByte` (R141): the fifth byte has `b4 & 0xF0 != 0` (R103). -/
def badFinalByte (checked : Bool) (b : Byte) : Bool :=
  checked && decide (highNibble b ≠ 0#4)

end Sys2Proof.Machine
end

