-- ==== Sys2Proof/Config.lean ====
section
/-!
DEFINITION. What is fixed for a run: the launch parameters the spec leaves to the host (R6, R7, R8), and the free
values the spec leaves open (R105, R161), which have no body.
-/

namespace Sys2Proof

/-- A run of addresses `base .. base + size - 1`. A list of regions is the plain-data form of a predicate on
addresses (R7); see notes/assumptions/2.md. -/
structure Region where
  base : Nat
  size : Nat
deriving DecidableEq, Repr

/-- The implementation parameters the host gives at launch: `ADDR_WIDTH` (R6), `Readable` and `Writable` (R7).
"No other parameter exists" (R8). -/
structure Launch where
  /-- `ADDR_WIDTH`, the width in bits of a cursor and of a limit (R6). -/
  addrWidth : Nat
  /-- The regions that `Readable` holds on, below `2^ADDR_WIDTH` (R7). -/
  readable : List Region
  /-- The regions that `Writable` holds on, below `2^ADDR_WIDTH` (R7). -/
  writable : List Region
deriving DecidableEq, Repr

/-- "The maximum encoded length is 5 bytes" (R5): every operation ends after at most five iterations (R163). -/
def Config.maxBytes : Nat := 5

/-- FREE VALUE. `VALUE_OUT` of a checked decode with `OK = 0`: "hold **any value**, and a model draws each freely,
under no law" (R105). The argument is the draw counter of the state. -/
opaque Config.freeValue : Nat → Word

/-- FREE VALUE. `CURSOR_OUT` of a checked decode with `OK = 0` (R105), before it is cut to `ADDR_WIDTH` bits. -/
opaque Config.freeCursor : Nat → Nat

/-- FREE VALUE. How many further iterations an operation makes before a reset that lands while it is `Busy` takes
effect (R161: "the length is a free draw"). -/
opaque Config.freeIterations : Nat → Nat

end Sys2Proof
end

