-- ==== Sys2Proof/Machine/State.lean ====
section
/-!
DEFINITION. The state of the system of two agents, host and codec (R20): the launch parameters, the host's byte
memory, the model status with the transient state of the running operation, the response, the accesses made, the
host's moves to come; the reasons a step can stop; and the state after reset.
-/

namespace Sys2Proof.Machine

/-- The transient state of one operation (R28). It exists only while the status is `Busy`. -/
structure Transient where
  /-- Decode accumulator, 32 bits: "the OR of the groups placed so far". -/
  acc : Word
  /-- "groups read or written so far", 3 bits, 0..5. -/
  i : Nat
  /-- "encoder and size: the value not yet emitted", 32 bits. -/
  rem : Word
deriving DecidableEq, Repr

/-- "created when the request is accepted", each at its initial value of R28. -/
def Transient.init (r : Request) : Transient :=
  { acc := 0#32, i := 0, rem := r.value }

/-- One access to the host's memory, always one byte wide (R42). -/
inductive Access where
  /-- A byte read at an address (R45). -/
  | read (a : Nat)
  /-- A byte written at an address (R46). -/
  | write (a : Nat) (b : Byte)
deriving DecidableEq, Repr

/-- The model faults of R142 with the info they record. A model fault makes a NEXT state whose status is
`faulted` (R143). A step answers one of these as its outcome only when the run has ended in it: the status is
`faulted` and the host makes no further move. Each is safe: the model admits no run of the codec past that point. -/
inductive Fault where
  /-- Code 1, raised by the acceptance of a request whose `CMD` is not one of the eight legal values. Safe. -/
  | illegalCommand (cmd : Byte)
  /-- Code 2, raised by DECU, DECS, DECUC, DECSC at a read at `a` with `Readable(a)` false. Safe. -/
  | memReadFault (cmd : Byte) (a : Nat)
  /-- Code 3, raised by ENCU at a write at `a` with `Writable(a)` false. Safe. -/
  | memWriteFault (cmd : Byte) (a : Nat)
  /-- Code 4, raised by `Finish` when the advanced cursor `c` is not below `2^ADDR_WIDTH` (R144). Safe. -/
  | cursorOverflow (cmd : Byte) (c : Nat)
deriving DecidableEq, Repr

/-- Why the model gives no answer. -/
inductive Refusal where
  /-- An arm of `exec` whose instruction has no meaning yet. No arm uses it. Safe. -/
  | notModelled (mnemonic : String)
  /-- Raised by `step` on a move no host can make: a request field wider than ADDR_WIDTH bits (R23), or a write outside
  the address space (R40). Safe: no hardware run has such a move. -/
  | malformedMove
  /-- Raised by a meaning that is run where no request is being served: the codec is not `Idle`, or the next move
  of the host is no request (R29). `step` never runs a meaning there. Safe. -/
  | noRequest
deriving DecidableEq, Repr

/-- The model status (R29): `Idle`, `Busy(op)` or `Faulted(code, info)`. A `busy` status holds the request being
served (R23) and the transient state (R28), which "does not exist until a request is accepted" (R31). -/
inductive Status where
  | idle
  | busy (op : Instr) (req : Request) (t : Transient)
  | faulted (f : Fault)
deriving DecidableEq, Repr

/-- The response record, of the operation's own shape (R24): "A field not listed for an operation does not exist in
that response". `cursorOut` fits ADDR_WIDTH bits (`Response.Fits` in Sys2Proof/Safety.lean). -/
inductive Response where
  /-- `VALUE_OUT` (read as u32), `CURSOR_OUT`. -/
  | decu (valueOut : Word) (cursorOut : Nat)
  /-- `VALUE_OUT` (read as i32), `CURSOR_OUT`. -/
  | decs (valueOut : Word) (cursorOut : Nat)
  /-- `OK`, `VALUE_OUT` (u32), `CURSOR_OUT`. -/
  | decuc (ok : Bool) (valueOut : Word) (cursorOut : Nat)
  /-- `OK`, `VALUE_OUT` (i32), `CURSOR_OUT`. -/
  | decsc (ok : Bool) (valueOut : Word) (cursorOut : Nat)
  /-- `CURSOR_OUT`. -/
  | encu (cursorOut : Nat)
  /-- `COUNT`, 3 bits, 1..5. -/
  | sizeu (count : BitVec 3)
deriving DecidableEq, Repr

structure State where
  /-- The launch parameters `ADDR_WIDTH`, `Readable`, `Writable` (R6, R7). -/
  launch : Launch
  /-- The host's byte memory (R22, R40), canonical: addresses strictly rising, no entry that holds what an unlisted
  address reads as. -/
  mem : List Host.Cell
  /-- The model status (R29) with the transient state of R28. -/
  status : Status
  /-- The response delivered by the last operation, if it delivered one (R24, R31). -/
  response : Option Response
  /-- The accesses the current or last operation made, oldest first: the model's own record of "which bytes an
  operation touched" (R30). No operation reads it. -/
  trace : List Access
  /-- The model's own: the host's moves to come, in issue order (R53, R169). -/
  moves : List HostMove
  /-- The model's own: how many free values have been drawn (R105, R161). -/
  draws : Nat
deriving DecidableEq, Repr

/-- After reset: "The status is `Idle`, with no fault recorded", no operation is in flight and no response is
pending (R31, R160). Memory belongs to the host and nothing is listed in it. The launch parameters are the host's:
the model takes the spec's own vectors' `ADDR_WIDTH = 16` with the whole address space readable and writable, DESIGN
CHOICE (notes/assumptions/3.md). -/
def State.reset : State where
  launch :=
    { addrWidth := 16
      readable := [{ base := 0, size := 65536 }]
      writable := [{ base := 0, size := 65536 }] }
  mem := []
  status := .idle
  response := none
  trace := []
  moves := []
  draws := 0

end Sys2Proof.Machine
end

