-- ==== Sys2Proof/Machine/Memory.lean ====
section
/-!
DEFINITION. The host's byte memory (R40): one byte per address, held as a list of cells in one canonical form, with
its read, its write and the admission of an access by `Readable` and `Writable` (R7, R45, R46).
-/

namespace Sys2Proof.Machine

/-- What an address that no cell lists reads as: DESIGN CHOICE, unsafe (notes/assumptions/4.md). A readable byte "holds a
value that a read may return" (R7), so a read of it must give one. -/
def Memory.blank : Byte := 0#8

/-- The byte currently stored at an address (R47, R53). -/
def Memory.read : List Host.Cell → Nat → Byte
  | [], _ => Memory.blank
  | (k, v) :: rest, a => if k = a then v else Memory.read rest a

/-- A cell in front of a list, unless it holds what an unlisted address reads as. -/
def Memory.cell (a : Nat) (b : Byte) (rest : List Host.Cell) : List Host.Cell :=
  if b = Memory.blank then rest else (a, b) :: rest

/-- Store one byte, keeping the canonical form. -/
def Memory.write : List Host.Cell → Nat → Byte → List Host.Cell
  | [], a, b => Memory.cell a b []
  | (k, v) :: rest, a, b =>
    if a < k then Memory.cell a b ((k, v) :: rest)
    else if a = k then Memory.cell a b rest
    else (k, v) :: Memory.write rest a b

/-- Cells at rising addresses from `low` on, none of them blank. -/
def Memory.risingFrom (low : Nat) : List Host.Cell → Bool
  | [] => true
  | (a, v) :: rest => decide (low ≤ a) && decide (v ≠ Memory.blank) && Memory.risingFrom (a + 1) rest

/-- The canonical form of memory. -/
def Memory.wf (m : List Host.Cell) : Bool := Memory.risingFrom 0 m

/-- Store `f 0, …, f (n-1)` at `c, …, c + n - 1`, in ascending address order. -/
def Memory.writeRun (m : List Host.Cell) (c : Nat) (f : Nat → Byte) : Nat → List Host.Cell
  | 0 => m
  | n + 1 => Memory.write (Memory.writeRun m c f n) (c + n) (f n)

end Sys2Proof.Machine

namespace Sys2Proof

/-- The address lies in the region. -/
def Region.contains (g : Region) (a : Nat) : Bool :=
  decide (g.base ≤ a) && decide (a < g.base + g.size)

/-- An address below `2^ADDR_WIDTH` in one of the regions: both predicates "are false for every
`a >= 2^ADDR_WIDTH`" (R7). -/
def Launch.admits (l : Launch) (regions : List Region) (a : Nat) : Bool :=
  decide (a < 2 ^ l.addrWidth) && regions.any (fun g => g.contains a)

end Sys2Proof

namespace Sys2Proof.Machine

/-- `Readable(a)` (R7). -/
def State.canRead (s : State) (a : Nat) : Bool := s.launch.admits s.launch.readable a

/-- `Writable(a)` (R7). -/
def State.canWrite (s : State) (a : Nat) : Bool := s.launch.admits s.launch.writable a

/-- The byte stored at an address. -/
def State.byteAt (s : State) (a : Nat) : Byte := Memory.read s.mem a

end Sys2Proof.Machine
end

