-- ==== Sys2Proof/Machine/Ops.lean ====
section
/-!
DEFINITION. The operations the meanings share: the primitives of R12 (`MemRead`, `MemWrite`, `raise`, `respond`,
`invalid`), `Finish` (R82), the acceptance of a request (R28, R29), and the loop that takes a `Busy` codec from one
iteration to the next until it responds or faults (R163). The codec has no trap mechanism (R140): `State.raise` is the
one way an operation ends without a response, and only `State.hostReset` leaves the status it sets (R143).
-/

namespace Sys2Proof.Machine

/-- `MemRead(addr, 1)` (R12): the byte and the record of the read, or nothing where `Readable(a)` is false and the
read "does not happen" (R45). -/
def State.memRead (s : State) (a : Nat) : Option (Byte × State) :=
  if s.canRead a then some (s.byteAt a, { s with trace := s.trace ++ [Access.read a] })
  else none

/-- `MemWrite(addr, 1, b)` (R12): the byte stored and the record of the write, or nothing where `Writable(a)` is
false and the write "does not happen" (R46). -/
def State.memWrite (s : State) (a : Nat) (b : Byte) : Option State :=
  if s.canWrite a then
    some { s with mem := Memory.write s.mem a b, trace := s.trace ++ [Access.write a b] }
  else none

/-- `raise F(info)` (R12, R143): no response, status `Faulted(code, info)`, memory as it stands. -/
def State.raise (f : Fault) (s : State) : State :=
  { s with status := .faulted f, response := none }

/-- `respond(fields)` (R12): the response is delivered and the status returns to `Idle` (R163). -/
def State.respond (resp : Response) (s : State) : State :=
  { s with status := .idle, response := some resp }

/-- The operation goes on: `Busy` with the transient state of its next iteration (R28, R29). -/
def State.keepBusy (op : Instr) (r : Request) (t : Transient) (s : State) : State :=
  { s with status := .busy op r t }

/-- `respond` with `CURSOR_OUT = Finish(CURSOR, N)` (R82): `CursorOverflow` where `CURSOR + N` is not representable
in ADDR_WIDTH bits (R144). -/
def State.finish (r : Request) (n : Nat) (resp : Nat → Response) (s : State) : State :=
  if 2 ^ s.launch.addrWidth ≤ r.cursor + n then s.raise (.cursorOverflow r.cmd (r.cursor + n))
  else s.respond (resp (r.cursor + n))

/-- `invalid` (R12, R105): the response with `OK = 0` and free draws for `VALUE_OUT` and `CURSOR_OUT`, the latter cut
to its ADDR_WIDTH bits (R24). It never raises `CursorOverflow` (R144). -/
def State.invalid (resp : Word → Nat → Response) (s : State) : State :=
  State.respond
    (resp (Config.freeValue s.draws) (Config.freeCursor s.draws % 2 ^ s.launch.addrWidth))
    { s with draws := s.draws + 1 }

/-- A request is accepted as operation `op` (R28, R29): it leaves the host's moves, its transient state is created, and
no earlier response or access is on record. -/
def State.accept (op : Instr) (r : Request) (rest : List HostMove) (s : State) : State :=
  { s with
    status := .busy op r (Transient.init r)
    response := none
    trace := []
    moves := rest }

/-- Up to `n` iterations of a `Busy` codec, `tick` being one iteration of its operation; it stops as soon as the
status is no longer `Busy`. -/
def runBusy (tick : Request → Transient → State → State) : Nat → State → State
  | 0, s => s
  | n + 1, s =>
    match s.status with
    | .busy _ r t => runBusy tick n (tick r t s)
    | .idle => s
    | .faulted _ => s

/-- A meaning: an `Idle` codec accepts the request the host presents next, as operation `op`, and runs it to its end.
"each call is bounded (≤5 byte reads/writes) and always completes" (R163), so five iterations are always enough. -/
def State.serve (op : Instr) (tick : Request → Transient → State → State) (s : State) :
    Host.Outcome State Fault Refusal :=
  match s.status, s.moves with
  | .idle, .request r :: rest => .next (runBusy tick Config.maxBytes (s.accept op r rest))
  | _, _ => .refused .noRequest

/-- Reset (R31, R160): status `Idle` with no fault recorded, no operation in flight, no response pending; "Reset does
not change memory". -/
def State.hostReset (s : State) : State :=
  { s with status := .idle, response := none, trace := [] }

/-- The host stores a byte in its own memory (R20, R22). -/
def State.hostWrite (a : Nat) (b : Byte) (s : State) : State :=
  { s with mem := Memory.write s.mem a b }

/-- A request presented to a `Faulted` codec is not accepted (R143): it gets no response. -/
def State.turnAway (rest : List HostMove) (s : State) : State :=
  { s with moves := rest }

/-- Reset of a codec that may be `Busy` (R161): the operation makes a freely drawn number of further iterations, so an
ENCU leaves a drawn prefix of its writes, and then the reset takes effect. -/
def State.resetWhileBusy (tick : Request → Transient → State → State) (s : State) : State :=
  let k := Config.freeIterations s.draws % (Config.maxBytes + 1)
  State.hostReset (runBusy tick k { s with draws := s.draws + 1 })

end Sys2Proof.Machine
end

