-- ==== Sys2Proof/Machine/DecodeOps.lean ====
section
/-!
DEFINITION. The four decodes: the group accumulation they share (R80), and DECU (R82), DECS (R83), DECUC (R100),
DECSC (R101).
-/

namespace Sys2Proof.Machine

/-- What one byte makes of a decode (R80): go on with the next byte, end well with the accumulator and `N`, or end in
InvalidEncoding. -/
inductive GroupStep where
  | more (t : Transient)
  | ok (acc : Word) (n : Nat)
  | invalid
deriving DecidableEq, Repr

/-- The body of `GroupAccumulate`'s loop after the byte is read (R80). -/
def groupStep (checked : Bool) (t : Transient) (b : Byte) : GroupStep :=
  if t.i < 4 then
    if continues b then .more { t with acc := placeGroup t.acc t.i b, i := t.i + 1 }
    else .ok (placeGroup t.acc t.i b) (t.i + 1)
  else if badFinalByte checked b then .invalid
  else .ok (placeLast t.acc b) 5

/-- The response shape of a decode (R24); an unchecked decode has no `OK`. -/
def decodeResponse (checked signed ok : Bool) (value : Word) (cursor : Nat) : Response :=
  match checked, signed with
  | false, false => .decu value cursor
  | false, true => .decs value cursor
  | true, false => .decuc ok value cursor
  | true, true => .decsc ok value cursor

/-- The value of a decode that ends well: `acc`, or `SignExtendGroups(acc, N)` (R82, R83, R104). -/
def decodeValue (signed : Bool) (acc : Word) (n : Nat) : Word :=
  if signed then signExtendGroups acc n else acc

/-- One iteration of a decode, in the order of R145: the limit check, the read of the byte, the fifth-byte check. The
status stays `Busy` while bytes continue; `Finish` ends a decode that ended well. -/
def decodeTick (op : Instr) (checked lim signed : Bool) (r : Request) (t : Transient) (s : State) : State :=
  if pastLimit checked lim r (r.cursor + t.i) then s.invalid (decodeResponse checked signed false)
  else
    match s.memRead (r.cursor + t.i) with
    | none => s.raise (.memReadFault r.cmd (r.cursor + t.i))
    | some (b, s1) =>
      match groupStep checked t b with
      | .more t1 => s1.keepBusy op r t1
      | .ok acc n => s1.finish r n (decodeResponse checked signed true (decodeValue signed acc n))
      | .invalid => s1.invalid (decodeResponse checked signed false)

/-- One iteration of DECU (R82). -/
def decuTick : Request → Transient → State → State := decodeTick .decu false false false

/-- One iteration of DECS (R83). -/
def decsTick : Request → Transient → State → State := decodeTick .decs false false true

/-- One iteration of DECUC (R100). -/
def decucTick (lim : Bool) : Request → Transient → State → State := decodeTick (.decuc lim) true lim false

/-- One iteration of DECSC (R101). -/
def decscTick (lim : Bool) : Request → Transient → State → State := decodeTick (.decsc lim) true lim true

/-- DECU: decode unsigned, unchecked (R82). -/
def execDecu (s : State) : Host.Outcome State Fault Refusal := s.serve .decu decuTick

/-- DECS: decode signed, unchecked (R83). -/
def execDecs (s : State) : Host.Outcome State Fault Refusal := s.serve .decs decsTick

/-- DECUC: decode unsigned, checked (R100). -/
def execDecuc (lim : Bool) (s : State) : Host.Outcome State Fault Refusal :=
  s.serve (.decuc lim) (decucTick lim)

/-- DECSC: decode signed, checked (R101). -/
def execDecsc (lim : Bool) (s : State) : Host.Outcome State Fault Refusal :=
  s.serve (.decsc lim) (decscTick lim)

end Sys2Proof.Machine
end

