-- ==== Sys2Proof/Machine/EncodeOps.lean ====
section
/-!
DEFINITION. The encoder ENCU (R120) and the size predictor SIZEU (R121).
-/

namespace Sys2Proof.Machine

/-- One iteration of ENCU (R120): the last byte and `Finish`, or a byte with the continuation bit set. A write that is
not admitted ends the operation, and "Bytes written before it stay written". -/
def encuTick (r : Request) (t : Transient) (s : State) : State :=
  if fitsGroup t.rem then
    match s.memWrite (r.cursor + t.i) (lastByte t.rem) with
    | none => s.raise (.memWriteFault r.cmd (r.cursor + t.i))
    | some s1 => s1.finish r (t.i + 1) .encu
  else
    match s.memWrite (r.cursor + t.i) (moreByte t.rem) with
    | none => s.raise (.memWriteFault r.cmd (r.cursor + t.i))
    | some s1 => s1.keepBusy .encu r { t with rem := t.rem >>> 7, i := t.i + 1 }

/-- One iteration of SIZEU's do-while loop (R121): shift, count, and respond once the value is zero. It makes no
access. -/
def sizeuTick (r : Request) (t : Transient) (s : State) : State :=
  if t.rem >>> 7 = 0#32 then s.respond (.sizeu (BitVec.ofNat 3 (t.i + 1)))
  else s.keepBusy .sizeu r { t with rem := t.rem >>> 7, i := t.i + 1 }

/-- ENCU: encode unsigned (R120). -/
def execEncu (s : State) : Host.Outcome State Fault Refusal := s.serve .encu encuTick

/-- SIZEU: encoded size, unsigned (R121). -/
def execSizeu (s : State) : Host.Outcome State Fault Refusal := s.serve .sizeu sizeuTick

end Sys2Proof.Machine
end

