-- ==== Sys2Proof/Machine/Dispatch.lean ====
section
/-!
DEFINITION. The dispatch: one arm per operation (R2).
-/

namespace Sys2Proof.Machine

def exec (i : Instr) (s : State) : Host.Outcome State Fault Refusal :=
  match i with
  | .decu => Sys2Proof.Machine.execDecu s
  | .decs => Sys2Proof.Machine.execDecs s
  | .decuc lim => Sys2Proof.Machine.execDecuc lim s
  | .decsc lim => Sys2Proof.Machine.execDecsc lim s
  | .encu => Sys2Proof.Machine.execEncu s
  | .sizeu => Sys2Proof.Machine.execSizeu s

end Sys2Proof.Machine
end

