-- ==== Sys2Proof/WellFormed.lean ====
section
/-!
DEFINITION. The checks on what the host hands over: the launch parameters (R6), the widths of the request's fields
(R23) and the address of a host write (R40). An instruction needs no check of its own: every term of `Instr` is legal.
-/

namespace Sys2Proof

/-- "`ADDR_WIDTH >= 1`" (R6). -/
def Launch.wellFormed (l : Launch) : Bool :=
  decide (1 ≤ l.addrWidth)

end Sys2Proof

namespace Sys2Proof.Machine

/-- `CURSOR` and `LIMIT` are ADDR_WIDTH bits wide (R23). -/
def Request.wellFormed (addrWidth : Nat) (r : Request) : Bool :=
  decide (r.cursor < 2 ^ addrWidth) && decide (r.limit < 2 ^ addrWidth)

/-- A move the host can make: its request fits the record (R23), its write is at an address of the one address space
(R40). -/
def HostMove.wellFormed (addrWidth : Nat) : HostMove → Bool
  | .request r => r.wellFormed addrWidth
  | .write a _ => decide (a < 2 ^ addrWidth)
  | .reset => true
  | .resetDuring r => r.wellFormed addrWidth

end Sys2Proof.Machine
end

