-- ==== Sys2Proof/Machine/Moves.lean ====
section
/-!
DEFINITION. What the system does next: a `Busy` codec goes on, otherwise the host's next move is made (R20, R29,
R53, R169). Step.lean only calls this file.
-/

namespace Sys2Proof.Machine

/-- One iteration of an operation, for a codec that is already `Busy` with it. -/
def opTick : Instr → Request → Transient → State → State
  | .decu => decuTick
  | .decs => decsTick
  | .decuc lim => decucTick lim
  | .decsc lim => decscTick lim
  | .encu => encuTick
  | .sizeu => sizeuTick

/-- A step of a `Busy` codec: it runs its operation to the end. The host has no move during it (R53) but a reset
(R161, R169). -/
def State.goOn (op : Instr) (s : State) : State :=
  match s.moves with
  | .reset :: rest => State.resetWhileBusy (opTick op) { s with moves := rest }
  | _ => runBusy (opTick op) Config.maxBytes s

/-- The next request is presented to an `Idle` codec (R145): `IllegalCommand` "decided from `CMD` before any access", or
the operation. -/
def State.presentIdle (r : Request) (rest : List HostMove) (s : State) : Host.Outcome State Fault Refusal :=
  match decode r.cmd with
  | .ok i => exec i s
  | .error _ => .next (State.raise (.illegalCommand r.cmd) { s with trace := [], moves := rest })

/-- A request is presented to an `Idle` codec that is then reset while `Busy` with it (R161). An illegal command is
never `Busy`: its fault record is cleared by the reset (R160). -/
def State.presentThenReset (r : Request) (rest : List HostMove) (s : State) : State :=
  match decode r.cmd with
  | .ok i => State.resetWhileBusy (opTick i) (s.accept i r rest)
  | .error _ => State.hostReset { s with moves := rest }

/-- The host's next move, made at an `Idle` codec. -/
def State.moveIdle (m : HostMove) (rest : List HostMove) (s : State) : Host.Outcome State Fault Refusal :=
  match m with
  | .request r => s.presentIdle r rest
  | .write a b => .next (State.hostWrite a b { s with moves := rest })
  | .reset => .next (State.hostReset { s with moves := rest })
  | .resetDuring r => .next (s.presentThenReset r rest)

/-- The host's next move, made at a `Faulted` codec: "No later request is accepted, and the fault record is never
cleared except by reset" (R143). -/
def State.moveFaulted (m : HostMove) (rest : List HostMove) (s : State) : State :=
  match m with
  | .request _ => s.turnAway rest
  | .write a b => State.hostWrite a b { s with moves := rest }
  | .reset => State.hostReset { s with moves := rest }
  | .resetDuring _ => State.hostReset { s with moves := rest }

/-- One step of the system. An `Idle` codec with no move to come waits; a `Faulted` codec with none has ended the run in
its fault. A move no host can make is refused. -/
def State.advance (s : State) : Host.Outcome State Fault Refusal :=
  match s.status, s.moves with
  | .busy op _ _, _ => .next (s.goOn op)
  | .idle, [] => .next s
  | .faulted f, [] => .fault f
  | .idle, m :: rest =>
    if m.wellFormed s.launch.addrWidth then s.moveIdle m rest else .refused .malformedMove
  | .faulted _, m :: rest =>
    if m.wellFormed s.launch.addrWidth then .next (s.moveFaulted m rest) else .refused .malformedMove

end Sys2Proof.Machine
end

