-- ==== Sys2Proof/Machine/Step.lean ====
section
/-!
DEFINITION. One step (Sys2Proof/Machine/Moves.lean), and the state whose next step runs a given command byte. The codec
fetches nothing: "The command of an operation arrives in the request's `CMD` field, not from memory" (R55).
-/

namespace Sys2Proof.Machine

/-- One step of the system of host and codec. -/
def step (s : State) : Host.Outcome State Fault Refusal := s.advance

/-- `s` with the request `CMD = w`, operand fields zero, presented next to an `Idle` codec. A word with a bit set above
bit 7 is no command byte (R60): it is cut to eight bits. See notes/assumptions/9.md. -/
def State.withFetchWord (s : State) (nbits w : Nat) : State :=
  { s with
    status := .idle
    moves :=
      .request { cmd := BitVec.ofNat 8 (w % 2 ^ nbits), cursor := 0, limit := 0, value := 0#32 } :: s.moves }

end Sys2Proof.Machine
end

