-- ==== Sys2Proof/Machine/Assembly.lean ====
section
/-!
DEFINITION. The spec's own textual form of a request (R72), as data: what a line denotes as a request record, and how it
reads. Not semantic (92_eei_decisions.md D17): no step uses it.
-/

namespace Sys2Proof.Machine

/-- `@<cursor>`, or `@prev`, "the previous response's `CURSOR_OUT`", which is host-side shorthand (R72). -/
inductive AsmCursor where
  | at (a : Nat)
  | prev
deriving DecidableEq, Repr

/-- A line of R72's list. An absent limit is `LIM = 0`. -/
inductive Asm where
  | decu (c : AsmCursor)
  | decs (c : AsmCursor)
  | decuc (c : AsmCursor) (limit : Option Nat)
  | decsc (c : AsmCursor) (limit : Option Nat)
  | encu (c : AsmCursor) (value : Word)
  | sizeu (value : Word)
deriving DecidableEq, Repr

/-- The cursor a response lets the host use next: none after `OK = 0`, whose `CURSOR_OUT` the host "must not" pass on
(R166), and none where the response has no cursor (R24). -/
def Response.nextCursor : Response → Option Nat
  | .decu _ c => some c
  | .decs _ c => some c
  | .decuc ok _ c => if ok then some c else none
  | .decsc ok _ c => if ok then some c else none
  | .encu c => some c
  | .sizeu _ => none

/-- The address a cursor operand stands for. -/
def AsmCursor.address (response : Option Response) : AsmCursor → Option Nat
  | .at a => some a
  | .prev => response.bind Response.nextCursor

/-- The request a line denotes (R72): its `CMD` by R61, omitted fields zero. -/
def Asm.request (response : Option Response) : Asm → Option Request
  | .decu c =>
    (c.address response).map fun a => { cmd := encode .decu, cursor := a, limit := 0, value := 0#32 }
  | .decs c =>
    (c.address response).map fun a => { cmd := encode .decs, cursor := a, limit := 0, value := 0#32 }
  | .decuc c limit =>
    (c.address response).map fun a =>
      { cmd := encode (.decuc limit.isSome), cursor := a, limit := limit.getD 0, value := 0#32 }
  | .decsc c limit =>
    (c.address response).map fun a =>
      { cmd := encode (.decsc limit.isSome), cursor := a, limit := limit.getD 0, value := 0#32 }
  | .encu c v =>
    (c.address response).map fun a => { cmd := encode .encu, cursor := a, limit := 0, value := v }
  | .sizeu v => some { cmd := encode .sizeu, cursor := 0, limit := 0, value := v }

/-- A cursor operand as text, with a decimal numeral (R72). -/
def AsmCursor.text : AsmCursor → String
  | .at a => "@" ++ toString a
  | .prev => "@prev"

/-- The limit operand as text. -/
def Asm.limitText : Option Nat → String
  | none => ""
  | some l => ", lim=" ++ toString l

/-- A line as text (R72). -/
def Asm.text : Asm → String
  | .decu c => "DECU   " ++ c.text
  | .decs c => "DECS   " ++ c.text
  | .decuc c limit => "DECUC  " ++ c.text ++ Asm.limitText limit
  | .decsc c limit => "DECSC  " ++ c.text ++ Asm.limitText limit
  | .encu c v => "ENCU   " ++ c.text ++ ", #" ++ toString v.toNat
  | .sizeu v => "SIZEU  #" ++ toString v.toNat

end Sys2Proof.Machine
end

