-- ==== Sys2Proof/Safety.lean ====
section
/-!
DEFINITION. The terms the statements use: the closed forms of the LEB128 format (R67 to R71, R122), the states a meaning
is applied to and the states it ends in, the fault codes (R142), the invariant of the machine, and a safe state.
-/

namespace Sys2Proof.Machine

/-! ### The LEB128 format, in closed form -/

/-- `N` by the continuation bits of bytes 0 to 3 (R67, R68). -/
def seqLength (f : Nat → Byte) : Nat :=
  if continues (f 0) then
    if continues (f 1) then
      if continues (f 2) then
        if continues (f 3) then 5 else 4
      else 3
    else 2
  else 1

/-- The value bits of the first `n` bytes, each group at the place of R69's table. -/
def placedValue (f : Nat → Byte) : Nat → Word
  | 1 => (payload (f 0)).setWidth 32
  | 2 => (payload (f 1) ++ payload (f 0)).setWidth 32
  | 3 => (payload (f 2) ++ (payload (f 1) ++ payload (f 0))).setWidth 32
  | 4 => (payload (f 3) ++ (payload (f 2) ++ (payload (f 1) ++ payload (f 0)))).setWidth 32
  | _ => (lowNibble (f 4) ++ (payload (f 3) ++ (payload (f 2) ++ (payload (f 1) ++ payload (f 0))))).setWidth 32

/-- The signed value: "sign-extended from bit `(7*N - 1)`" for `N < 5`, the whole word for `N = 5` (R81). -/
def placedSigned (f : Nat → Byte) : Nat → Word
  | 1 => (payload (f 0)).signExtend 32
  | 2 => (payload (f 1) ++ payload (f 0)).signExtend 32
  | 3 => (payload (f 2) ++ (payload (f 1) ++ payload (f 0))).signExtend 32
  | 4 => (payload (f 3) ++ (payload (f 2) ++ (payload (f 1) ++ payload (f 0)))).signExtend 32
  | _ => (lowNibble (f 4) ++ (payload (f 3) ++ (payload (f 2) ++ (payload (f 1) ++ payload (f 0))))).setWidth 32

/-- The value of a decode, signed or not. -/
def placed (signed : Bool) (f : Nat → Byte) (n : Nat) : Word :=
  if signed then placedSigned f n else placedValue f n

/-- `COUNT` by the ranges of R122's table. -/
def sizeByRange (v : Word) : Nat :=
  if v.toNat < 2 ^ 7 then 1
  else if v.toNat < 2 ^ 14 then 2
  else if v.toNat < 2 ^ 21 then 3
  else if v.toNat < 2 ^ 28 then 4
  else 5

/-- Byte `k` of the canonical form of `v` (R71): its group `k`, under bit 7 set on "Every byte but the last". -/
def canonicalByte (v : Word) (k : Nat) : Byte :=
  BitVec.ofBool (decide (k + 1 < sizeByRange v)) ++ v.extractLsb' (7 * k) 7

/-! ### The states before and after a meaning -/

/-- The codec is `Idle` and the host presents the request `r` next. -/
def State.Presents (s : State) (r : Request) (rest : List HostMove) : Prop :=
  s.status = .idle ∧ s.moves = .request r :: rest

/-- The bytes stored from an address on: byte `k` is the one at `c + k` (R13). -/
def State.bytesFrom (s : State) (c : Nat) : Nat → Byte := fun k => s.byteAt (c + k)

/-- The first `n` bytes from `c` on are readable. -/
def State.ReadableRun (s : State) (c n : Nat) : Prop := ∀ k, k < n → s.canRead (c + k) = true

/-- The first `n` bytes from `c` on are writable. -/
def State.WritableRun (s : State) (c n : Nat) : Prop := ∀ k, k < n → s.canWrite (c + k) = true

/-- The record of reading `n` bytes in ascending order from `c` on (R48). -/
def readsFrom (c n : Nat) : List Access := (List.range n).map fun k => Access.read (c + k)

/-- The record of writing `f 0 … f (n-1)` in ascending order from `c` on (R49). -/
def writesFrom (c : Nat) (f : Nat → Byte) (n : Nat) : List Access :=
  (List.range n).map fun k => Access.write (c + k) (f k)

/-- `s` after an operation that made the accesses `tr` and responded: `Idle`, the request gone from the host's moves,
all else as it was. -/
def State.responded (s : State) (rest : List HostMove) (tr : List Access) (resp : Response) : State :=
  { s with status := .idle, moves := rest, trace := tr, response := some resp }

/-- `s` after an operation that made the accesses `tr` and ended in a model fault (R143). -/
def State.stopped (s : State) (rest : List HostMove) (tr : List Access) (f : Fault) : State :=
  { s with status := .faulted f, moves := rest, trace := tr, response := none }

/-- `s` with `n` bytes stored from `c` on, in ascending order. -/
def State.stored (s : State) (c : Nat) (f : Nat → Byte) (n : Nat) : State :=
  { s with mem := Memory.writeRun s.mem c f n }

/-- A state in which no model fault is recorded. -/
def State.Safe (s : State) : Prop := ∀ f, s.status ≠ .faulted f

/-- The address of an access. -/
def Access.address : Access → Nat
  | .read a => a
  | .write a _ => a

/-- The operations that read memory (R41). -/
def readsMemory : Instr → Bool
  | .decu => true
  | .decs => true
  | .decuc _ => true
  | .decsc _ => true
  | .encu => false
  | .sizeu => false

/-- The kind of access an operation may make (R41): a decode only reads, ENCU only writes, SIZEU touches no memory. -/
def allowsAccess : Instr → Access → Bool
  | .encu, .write _ _ => true
  | .encu, .read _ => false
  | .sizeu, _ => false
  | .decu, .read _ => true
  | .decs, .read _ => true
  | .decuc _, .read _ => true
  | .decsc _, .read _ => true
  | .decu, .write _ _ => false
  | .decs, .write _ _ => false
  | .decuc _, .write _ _ => false
  | .decsc _, .write _ _ => false

/-- The access is admitted (R45, R46). -/
def State.Admits (s : State) : Access → Prop
  | .read a => s.canRead a = true
  | .write a _ => s.canWrite a = true

/-- The code of a model fault (R142). -/
def Fault.code : Fault → Nat
  | .illegalCommand _ => 1
  | .memReadFault _ _ => 2
  | .memWriteFault _ _ => 3
  | .cursorOverflow _ _ => 4

/-! ### The invariant -/

/-- A response's `CURSOR_OUT` is ADDR_WIDTH bits wide (R24) and its `COUNT` is in 1..5. -/
def Response.Fits (addrWidth : Nat) : Response → Prop
  | .decu _ c => c < 2 ^ addrWidth
  | .decs _ c => c < 2 ^ addrWidth
  | .decuc _ _ c => c < 2 ^ addrWidth
  | .decsc _ _ c => c < 2 ^ addrWidth
  | .encu c => c < 2 ^ addrWidth
  | .sizeu n => 1 ≤ n.toNat ∧ n.toNat ≤ 5

/-- A recorded fault meets the condition R142's table gives it, and is raised by an operation the table names. -/
def Fault.Truthful (l : Launch) : Fault → Prop
  | .illegalCommand cmd => ∀ i, decode cmd ≠ .ok i
  | .memReadFault cmd a => l.admits l.readable a = false ∧ ∃ i, decode cmd = .ok i ∧ readsMemory i = true
  | .memWriteFault cmd a => l.admits l.writable a = false ∧ decode cmd = .ok .encu
  | .cursorOverflow cmd c => c = 2 ^ l.addrWidth ∧ ∃ i, decode cmd = .ok i ∧ i ≠ .sizeu

/-- The transient state of operation `op` on request `r` after `t.i` iterations (R28): `i` in 0..4 while bytes are still to
come, `acc` filled below bit `7*i`, `rem` the value not yet emitted, of which an encoder or SIZEU still has a group
left. -/
def Transient.Good (op : Instr) (r : Request) (t : Transient) : Prop :=
  t.i ≤ 4 ∧ t.acc.toNat < 2 ^ (7 * t.i) ∧
    (t.rem = if readsMemory op then r.value else r.value >>> (7 * t.i)) ∧
    (readsMemory op = false → t.i < sizeByRange r.value)

/-- What the status says is true of the launch parameters and of the accesses made (R28, R29, R142). -/
def Status.Good (l : Launch) (tr : List Access) : Status → Prop
  | .idle => tr.length ≤ Config.maxBytes
  | .busy op r t =>
    decode r.cmd = .ok op ∧ r.wellFormed l.addrWidth = true ∧ t.Good op r ∧
      tr.length = if op = .sizeu then 0 else t.i
  | .faulted f => f.Truthful l ∧ tr.length ≤ Config.maxBytes

/-- The invariant: legal launch parameters, canonical memory inside the address space, a status that tells the truth,
a response that fits its widths, and only admitted accesses on record, at most five of them (R42). -/
def State.Inv (s : State) : Prop :=
  s.launch.wellFormed = true ∧
    Memory.wf s.mem = true ∧
    (∀ c ∈ s.mem, c.1 < 2 ^ s.launch.addrWidth) ∧
    s.status.Good s.launch s.trace ∧
    (∀ resp, s.response = some resp → resp.Fits s.launch.addrWidth) ∧
    (∀ x ∈ s.trace, s.Admits x)

end Sys2Proof.Machine
end

