-- ==== Sys2Proof/Certificates/Slice0/Obligations.lean ====
section
/-!
DEFINITION. The statements for the provers. Each docstring names the rule of spec/ it formalises.
-/

open Sys2Proof Sys2Proof.Machine

/-! ### Reset and the invariant -/

/-- R31, R160 and the reset values of INVENTORY.md: after reset the status is `Idle`, nothing is pending and nothing is
listed in memory. The launch parameters, the empty memory and the draw counter are the model's choice
(notes/assumptions/3.md, 4.md and 5.md). -/
def Obligations.ResetIsIdle : Prop :=
  State.reset.status = .idle ∧ State.reset.response = none ∧ State.reset.trace = [] ∧ State.reset.moves = [] ∧
    State.reset.mem = [] ∧ State.reset.draws = 0 ∧ State.reset.launch.addrWidth = 16

/-- The invariant holds after reset. -/
def Obligations.ResetMeetsInvariant : Prop := State.reset.Inv

/-- One iteration of a `Busy` codec keeps the invariant: `i` stays below 5 while bytes are to come, `acc` is filled below
bit `7*i`, `rem` is the value not yet emitted (R28), the status tells the truth (R29, R142), accesses are admitted
(R45, R46) and at most five (R42). -/
def Obligations.IterationKeepsInvariant : Prop :=
  ∀ (s : State) (op : Instr) (r : Request) (t : Transient),
    s.status = .busy op r t → s.Inv → (opTick op r t s).Inv

/-- Every step keeps the invariant, from every state that meets it. -/
def Obligations.StepKeepsInvariant : Prop :=
  ∀ s t : State, s.Inv → step s = .next t → t.Inv

/-! ### The command byte -/

/-- R61: a command byte selects an operation exactly as the table says; `OP = 110` and `OP = 111` select none. -/
def Obligations.CommandTable : Prop :=
  ∀ (cmd : Byte) (i : Instr), decode cmd = .ok i ↔
    (cmd = 0x00#8 ∧ i = .decu) ∨ (cmd = 0x01#8 ∧ i = .decs) ∨
    (cmd = 0x02#8 ∧ i = .decuc false) ∨ (cmd = 0x0A#8 ∧ i = .decuc true) ∨
    (cmd = 0x03#8 ∧ i = .decsc false) ∨ (cmd = 0x0B#8 ∧ i = .decsc true) ∨
    (cmd = 0x04#8 ∧ i = .encu) ∨ (cmd = 0x05#8 ∧ i = .sizeu)

/-- R60, R61: decoding an encoded operation gives it back, and a legal command byte is the one its operation encodes
to. -/
def Obligations.DecodeEncodeAgree : Prop :=
  (∀ i : Instr, decode (encode i) = .ok i) ∧ ∀ (cmd : Byte) (i : Instr), decode cmd = .ok i → encode i = cmd

/-- R63: a command with `CMD[7:4] != 0`, with `OP` 6 or 7, or with `LIM = 1` on an operation without a limit is illegal.
These are 248 values. An illegal command ends in `IllegalCommand(CMD)`, before any access and without a response. -/
def Obligations.IllegalCommandFaults : Prop :=
  (∀ (s : State) (r : Request) (rest : List HostMove), s.Presents r rest → r.wellFormed s.launch.addrWidth = true →
    (r.cmd.toNat / 16 ≠ 0 ∨ 6 ≤ r.cmd.toNat % 8 ∨
      (r.cmd.toNat / 8 % 2 = 1 ∧ (r.cmd.toNat % 8 = 0 ∨ r.cmd.toNat % 8 = 1 ∨ r.cmd.toNat % 8 = 4 ∨ r.cmd.toNat % 8 = 5))) →
    step s = .next (s.stopped rest [] (.illegalCommand r.cmd))) ∧
  ((List.range 256).filter fun w => (decodeTableWord 8 w).isNone).length = 248

/-- A step of an `Idle` codec runs the operation that the presented request's command byte decodes to (R23, R64); there is
nothing around it. -/
def Obligations.StepRunsPresentedRequest : Prop :=
  ∀ (s : State) (r : Request) (rest : List HostMove) (i : Instr),
    s.Presents r rest → r.wellFormed s.launch.addrWidth = true → decode r.cmd = .ok i → step s = exec i s

/-- The state made to run a word of the opcode table next runs it: its command arrives in `CMD` (R55). -/
def Obligations.TableWordRunsNext : Prop :=
  ∀ (s : State) (w : Nat) (i : Instr), decodeTableWord 8 w = some i →
    step (s.withFetchWord 8 w) = exec i (s.withFetchWord 8 w)

/-- R28, R29, R53: a codec that has just accepted a request is `Busy` with its operation and goes on to the same end, the host
making no move meanwhile; a reset as its next move is R161's case. That ONE step takes a `Busy` codec to that end is the
model's own step size, its choice (DEDUCED, notes/assumptions/6.md): the rules give none. -/
def Obligations.BusyGoesOnToTheSameEnd : Prop :=
  ∀ (s : State) (r : Request) (rest : List HostMove) (i : Instr),
    s.Presents r rest → (∀ rest', rest ≠ .reset :: rest') → step (s.accept i r rest) = exec i s

/-! ### The operations, each with every end it can have -/

/-- R82, DECU. With `N` the length of the sequence at `CURSOR`: it responds with the placed value and `CURSOR + N`
(its completion), or `MemReadFault` at the first unreadable byte, or `CursorOverflow` at the top of the address space. -/
def Obligations.DecuRule : Prop :=
  decode 0x00#8 = .ok .decu ∧
  ∀ (s : State) (r : Request) (rest : List HostMove), s.Presents r rest →
    (s.ReadableRun r.cursor (seqLength (s.bytesFrom r.cursor)) →
      r.cursor + seqLength (s.bytesFrom r.cursor) < 2 ^ s.launch.addrWidth →
      exec .decu s = .next (s.responded rest (readsFrom r.cursor (seqLength (s.bytesFrom r.cursor)))
        (.decu (placedValue (s.bytesFrom r.cursor) (seqLength (s.bytesFrom r.cursor)))
          (r.cursor + seqLength (s.bytesFrom r.cursor))))) ∧
    (∀ k, k < seqLength (s.bytesFrom r.cursor) → s.ReadableRun r.cursor k → s.canRead (r.cursor + k) = false →
      exec .decu s = .next (s.stopped rest (readsFrom r.cursor k) (.memReadFault r.cmd (r.cursor + k)))) ∧
    (s.ReadableRun r.cursor (seqLength (s.bytesFrom r.cursor)) →
      2 ^ s.launch.addrWidth ≤ r.cursor + seqLength (s.bytesFrom r.cursor) →
      exec .decu s = .next (s.stopped rest (readsFrom r.cursor (seqLength (s.bytesFrom r.cursor)))
        (.cursorOverflow r.cmd (r.cursor + seqLength (s.bytesFrom r.cursor)))))

/-- R83, DECS: as DECU, with the value sign-extended from bit `7N - 1` (R81). -/
def Obligations.DecsRule : Prop :=
  decode 0x01#8 = .ok .decs ∧
  ∀ (s : State) (r : Request) (rest : List HostMove), s.Presents r rest →
    (s.ReadableRun r.cursor (seqLength (s.bytesFrom r.cursor)) →
      r.cursor + seqLength (s.bytesFrom r.cursor) < 2 ^ s.launch.addrWidth →
      exec .decs s = .next (s.responded rest (readsFrom r.cursor (seqLength (s.bytesFrom r.cursor)))
        (.decs (placedSigned (s.bytesFrom r.cursor) (seqLength (s.bytesFrom r.cursor)))
          (r.cursor + seqLength (s.bytesFrom r.cursor))))) ∧
    (∀ k, k < seqLength (s.bytesFrom r.cursor) → s.ReadableRun r.cursor k → s.canRead (r.cursor + k) = false →
      exec .decs s = .next (s.stopped rest (readsFrom r.cursor k) (.memReadFault r.cmd (r.cursor + k)))) ∧
    (s.ReadableRun r.cursor (seqLength (s.bytesFrom r.cursor)) →
      2 ^ s.launch.addrWidth ≤ r.cursor + seqLength (s.bytesFrom r.cursor) →
      exec .decs s = .next (s.stopped rest (readsFrom r.cursor (seqLength (s.bytesFrom r.cursor)))
        (.cursorOverflow r.cmd (r.cursor + seqLength (s.bytesFrom r.cursor)))))

/-- R100, DECUC, for both values of `LIM`: the response with `OK = 1` (its completion); `OK = 0` with `VALUE_OUT` and
`CURSOR_OUT` free where a byte's address is not below `LIMIT` or the fifth byte has a high nibble; `MemReadFault`
at an unreadable byte below the limit; `CursorOverflow` on success only. -/
def Obligations.DecucRule : Prop :=
  decode 0x02#8 = .ok (.decuc false) ∧ decode 0x0A#8 = .ok (.decuc true) ∧
  ∀ (lim : Bool) (s : State) (r : Request) (rest : List HostMove), s.Presents r rest →
    (s.ReadableRun r.cursor (seqLength (s.bytesFrom r.cursor)) →
      (lim = true → r.cursor + seqLength (s.bytesFrom r.cursor) ≤ r.limit) →
      (seqLength (s.bytesFrom r.cursor) = 5 → highNibble (s.bytesFrom r.cursor 4) = 0#4) →
      r.cursor + seqLength (s.bytesFrom r.cursor) < 2 ^ s.launch.addrWidth →
      exec (.decuc lim) s = .next (s.responded rest (readsFrom r.cursor (seqLength (s.bytesFrom r.cursor)))
        (.decuc true (placedValue (s.bytesFrom r.cursor) (seqLength (s.bytesFrom r.cursor)))
          (r.cursor + seqLength (s.bytesFrom r.cursor))))) ∧
    (∀ k, k < seqLength (s.bytesFrom r.cursor) → s.ReadableRun r.cursor k →
      lim = true → (∀ j, j < k → r.cursor + j < r.limit) → r.limit ≤ r.cursor + k →
      ∃ (v : Word) (c : Nat), c < 2 ^ s.launch.addrWidth ∧
        exec (.decuc lim) s = .next ({ s with draws := s.draws + 1 }.responded rest (readsFrom r.cursor k)
          (.decuc false v c))) ∧
    (seqLength (s.bytesFrom r.cursor) = 5 → s.ReadableRun r.cursor 5 → (lim = true → r.cursor + 5 ≤ r.limit) →
      highNibble (s.bytesFrom r.cursor 4) ≠ 0#4 →
      ∃ (v : Word) (c : Nat), c < 2 ^ s.launch.addrWidth ∧
        exec (.decuc lim) s = .next ({ s with draws := s.draws + 1 }.responded rest (readsFrom r.cursor 5)
          (.decuc false v c))) ∧
    (∀ k, k < seqLength (s.bytesFrom r.cursor) → s.ReadableRun r.cursor k →
      (lim = true → r.cursor + k < r.limit) → s.canRead (r.cursor + k) = false →
      exec (.decuc lim) s = .next (s.stopped rest (readsFrom r.cursor k) (.memReadFault r.cmd (r.cursor + k)))) ∧
    (s.ReadableRun r.cursor (seqLength (s.bytesFrom r.cursor)) →
      (lim = true → r.cursor + seqLength (s.bytesFrom r.cursor) ≤ r.limit) →
      (seqLength (s.bytesFrom r.cursor) = 5 → highNibble (s.bytesFrom r.cursor 4) = 0#4) →
      2 ^ s.launch.addrWidth ≤ r.cursor + seqLength (s.bytesFrom r.cursor) →
      exec (.decuc lim) s = .next (s.stopped rest (readsFrom r.cursor (seqLength (s.bytesFrom r.cursor)))
        (.cursorOverflow r.cmd (r.cursor + seqLength (s.bytesFrom r.cursor)))))

/-- R101, DECSC, for both values of `LIM`: the ends of DECUC, with the value sign-extended (R81). -/
def Obligations.DecscRule : Prop :=
  decode 0x03#8 = .ok (.decsc false) ∧ decode 0x0B#8 = .ok (.decsc true) ∧
  ∀ (lim : Bool) (s : State) (r : Request) (rest : List HostMove), s.Presents r rest →
    (s.ReadableRun r.cursor (seqLength (s.bytesFrom r.cursor)) →
      (lim = true → r.cursor + seqLength (s.bytesFrom r.cursor) ≤ r.limit) →
      (seqLength (s.bytesFrom r.cursor) = 5 → highNibble (s.bytesFrom r.cursor 4) = 0#4) →
      r.cursor + seqLength (s.bytesFrom r.cursor) < 2 ^ s.launch.addrWidth →
      exec (.decsc lim) s = .next (s.responded rest (readsFrom r.cursor (seqLength (s.bytesFrom r.cursor)))
        (.decsc true (placedSigned (s.bytesFrom r.cursor) (seqLength (s.bytesFrom r.cursor)))
          (r.cursor + seqLength (s.bytesFrom r.cursor))))) ∧
    (∀ k, k < seqLength (s.bytesFrom r.cursor) → s.ReadableRun r.cursor k →
      lim = true → (∀ j, j < k → r.cursor + j < r.limit) → r.limit ≤ r.cursor + k →
      ∃ (v : Word) (c : Nat), c < 2 ^ s.launch.addrWidth ∧
        exec (.decsc lim) s = .next ({ s with draws := s.draws + 1 }.responded rest (readsFrom r.cursor k)
          (.decsc false v c))) ∧
    (seqLength (s.bytesFrom r.cursor) = 5 → s.ReadableRun r.cursor 5 → (lim = true → r.cursor + 5 ≤ r.limit) →
      highNibble (s.bytesFrom r.cursor 4) ≠ 0#4 →
      ∃ (v : Word) (c : Nat), c < 2 ^ s.launch.addrWidth ∧
        exec (.decsc lim) s = .next ({ s with draws := s.draws + 1 }.responded rest (readsFrom r.cursor 5)
          (.decsc false v c))) ∧
    (∀ k, k < seqLength (s.bytesFrom r.cursor) → s.ReadableRun r.cursor k →
      (lim = true → r.cursor + k < r.limit) → s.canRead (r.cursor + k) = false →
      exec (.decsc lim) s = .next (s.stopped rest (readsFrom r.cursor k) (.memReadFault r.cmd (r.cursor + k)))) ∧
    (s.ReadableRun r.cursor (seqLength (s.bytesFrom r.cursor)) →
      (lim = true → r.cursor + seqLength (s.bytesFrom r.cursor) ≤ r.limit) →
      (seqLength (s.bytesFrom r.cursor) = 5 → highNibble (s.bytesFrom r.cursor 4) = 0#4) →
      2 ^ s.launch.addrWidth ≤ r.cursor + seqLength (s.bytesFrom r.cursor) →
      exec (.decsc lim) s = .next (s.stopped rest (readsFrom r.cursor (seqLength (s.bytesFrom r.cursor)))
        (.cursorOverflow r.cmd (r.cursor + seqLength (s.bytesFrom r.cursor)))))

/-- R120, ENCU: the canonical bytes of `VALUE` are stored from `CURSOR` on in ascending order and it responds with
`CURSOR + N` (its completion); or `MemWriteFault` at the first unwritable byte, the earlier bytes staying written; or
`CursorOverflow` after all writes. -/
def Obligations.EncuRule : Prop :=
  decode 0x04#8 = .ok .encu ∧
  ∀ (s : State) (r : Request) (rest : List HostMove), s.Presents r rest →
    (s.WritableRun r.cursor (sizeByRange r.value) →
      r.cursor + sizeByRange r.value < 2 ^ s.launch.addrWidth →
      exec .encu s = .next ((s.stored r.cursor (canonicalByte r.value) (sizeByRange r.value)).responded rest
        (writesFrom r.cursor (canonicalByte r.value) (sizeByRange r.value))
        (.encu (r.cursor + sizeByRange r.value)))) ∧
    (∀ k, k < sizeByRange r.value → s.WritableRun r.cursor k → s.canWrite (r.cursor + k) = false →
      exec .encu s = .next ((s.stored r.cursor (canonicalByte r.value) k).stopped rest
        (writesFrom r.cursor (canonicalByte r.value) k) (.memWriteFault r.cmd (r.cursor + k)))) ∧
    (s.WritableRun r.cursor (sizeByRange r.value) →
      2 ^ s.launch.addrWidth ≤ r.cursor + sizeByRange r.value →
      exec .encu s = .next ((s.stored r.cursor (canonicalByte r.value) (sizeByRange r.value)).stopped rest
        (writesFrom r.cursor (canonicalByte r.value) (sizeByRange r.value))
        (.cursorOverflow r.cmd (r.cursor + sizeByRange r.value))))

/-- R121, R122, SIZEU: `COUNT` by the table of ranges, no access, never a fault (its completion). -/
def Obligations.SizeuRule : Prop :=
  decode 0x05#8 = .ok .sizeu ∧
  ∀ (s : State) (r : Request) (rest : List HostMove), s.Presents r rest →
    exec .sizeu s = .next (s.responded rest [] (.sizeu (BitVec.ofNat 3 (sizeByRange r.value))))

/-! ### Frames -/

/-- The frame of the four decodes and of SIZEU (R41, R47): they store nothing, so every byte of memory reads as before; the
launch parameters stay; the request alone leaves the host's moves; a free value is drawn only by a failed checked decode
(R105). -/
def Obligations.ReadersLeaveMemory : Prop :=
  ∀ (i : Instr) (s t : State) (r : Request) (rest : List HostMove), i ≠ .encu → s.Presents r rest → exec i s = .next t →
    t.mem = s.mem ∧ (∀ a, t.byteAt a = s.byteAt a) ∧ t.launch = s.launch ∧ t.moves = rest ∧
      (t.draws = s.draws ∨ ∃ v c, t.response = some (.decuc false v c) ∨ t.response = some (.decsc false v c))

/-- The frame of ENCU, however it ends (R49): every byte outside `CURSOR .. CURSOR + SIZEU(VALUE) - 1` reads as before;
launch parameters and draws stay; the request alone leaves the host's moves. -/
def Obligations.EncuLeavesOtherBytes : Prop :=
  ∀ (s t : State) (r : Request) (rest : List HostMove), s.Presents r rest → exec .encu s = .next t →
    (∀ a, a < r.cursor ∨ r.cursor + sizeByRange r.value ≤ a → t.byteAt a = s.byteAt a) ∧
      t.launch = s.launch ∧ t.moves = rest ∧ t.draws = s.draws

/-- Over a whole step, memory changes only by ENCU, presented, interrupted by a reset or already `Busy`, and by the host's
own write (R22, R41). -/
def Obligations.OnlyEncuAndHostChangeMemory : Prop :=
  ∀ s t : State, step s = .next t → t.mem ≠ s.mem →
    (∃ r x, s.status = .busy .encu r x) ∨ (∃ a b rest, s.moves = .write a b :: rest) ∨
      ∃ r rest, r.cmd = 0x04#8 ∧ (s.moves = .request r :: rest ∨ s.moves = .resetDuring r :: rest)

/-! ### Accesses -/

/-- R41, R42: an operation makes at most five accesses, each one byte; decodes only read and ENCU only writes, starting at
`CURSOR`; SIZEU touches no memory. Access `k` is at `CURSOR + k` and is admitted. -/
def Obligations.AccessesAscendAtMostFive : Prop :=
  ∀ (i : Instr) (s t : State) (r : Request) (rest : List HostMove), s.Presents r rest → exec i s = .next t →
    t.trace.length ≤ 5 ∧
      ∀ k x, t.trace[k]? = some x → x.address = r.cursor + k ∧ allowsAccess i x = true ∧ s.Admits x

/-- R48: a decode reads its bytes in ascending order, each once; byte `k + 1` is read only if `k < 4` and byte `k` continues
the sequence; with a limit, no byte at or beyond it is read. -/
def Obligations.DecodeReadsNoFurtherThanTheSequence : Prop :=
  ∀ (i : Instr) (s t : State) (r : Request) (rest : List HostMove), readsMemory i = true → s.Presents r rest →
    exec i s = .next t →
    ∃ n, t.trace = readsFrom r.cursor n ∧
      (∀ k, k + 1 < n → k < 4 ∧ continues (s.bytesFrom r.cursor k) = true) ∧
      (i = .decuc true ∨ i = .decsc true → ∀ k, k < n → r.cursor + k < r.limit)

/-- R49: an ENCU that responds has written exactly `SIZEU(VALUE)` bytes, at `CURSOR .. CURSOR + SIZEU(VALUE) - 1` in ascending
order, each address once, and no other; it has read nothing. -/
def Obligations.EncuWritesExactlyItsBytes : Prop :=
  ∀ (s t : State) (r : Request) (rest : List HostMove), Memory.wf s.mem = true → s.Presents r rest →
    exec .encu s = .next t → t.status = .idle →
    t.trace = writesFrom r.cursor (canonicalByte r.value) (sizeByRange r.value) ∧
      (∀ k, k < sizeByRange r.value → t.byteAt (r.cursor + k) = canonicalByte r.value k) ∧
      (∀ a, a < r.cursor ∨ r.cursor + sizeByRange r.value ≤ a → t.byteAt a = s.byteAt a) ∧
      exec .sizeu s = .next (s.responded rest [] (.sizeu (BitVec.ofNat 3 (sizeByRange r.value))))

/-- R102: a decode with a limit learns nothing of the bytes at or beyond it. Memory that differs only there gives the same
end, the same response and the same accesses. -/
def Obligations.LimitedDecodeIsBlindBeyondLimit : Prop :=
  ∀ (i : Instr) (s : State) (r : Request) (rest : List HostMove) (m : List Host.Cell),
    (i = .decuc true ∨ i = .decsc true) → s.Presents r rest →
    (∀ a, a < r.limit → Memory.read m a = Memory.read s.mem a) →
    ∃ t, exec i s = .next t ∧ exec i { s with mem := m } = .next { t with mem := m }

/-! ### The ends of an operation -/

/-- R163: every operation ends, in its response with the status back at `Idle`, or in a recorded fault without one, after at
most five accesses. The second clause, that no step leaves the codec `Busy`, is the model's own step size, its choice
(DEDUCED, notes/assumptions/6.md), and no rule's: R170 has an operation take a finite number of steps. -/
def Obligations.EveryOperationEnds : Prop :=
  (∀ (i : Instr) (s : State) (r : Request) (rest : List HostMove), s.Presents r rest →
    ∃ t, exec i s = .next t ∧ t.trace.length ≤ 5 ∧
      ((t.status = .idle ∧ ∃ resp, t.response = some resp) ∨ (∃ f, t.status = .faulted f ∧ t.response = none))) ∧
  ∀ (s t : State) (op : Instr) (r : Request) (x : Transient), step s = .next t → t.status ≠ .busy op r x

/-- R24: the response has the shape of its operation. -/
def Obligations.ResponseHasItsShape : Prop :=
  ∀ (i : Instr) (s t : State) (r : Request) (rest : List HostMove) (resp : Response), s.Presents r rest →
    exec i s = .next t → t.response = some resp →
    (∃ v c, i = .decu ∧ resp = .decu v c) ∨ (∃ v c, i = .decs ∧ resp = .decs v c) ∨
      (∃ lim ok v c, i = .decuc lim ∧ resp = .decuc ok v c) ∨ (∃ lim ok v c, i = .decsc lim ∧ resp = .decsc ok v c) ∨
      (∃ c, i = .encu ∧ resp = .encu c) ∨ ∃ n, i = .sizeu ∧ resp = .sizeu n ∧ 1 ≤ n.toNat ∧ n.toNat ≤ 5

/-- R26: `CURSOR_OUT` is `CURSOR` plus the number of bytes read or written; after a failed checked decode it is a free draw,
cut to ADDR_WIDTH bits, and so is `VALUE_OUT` (R105; notes/assumptions/12.md). -/
def Obligations.CursorOutIsExact : Prop :=
  ∀ (i : Instr) (s t : State) (r : Request) (rest : List HostMove) (resp : Response), s.Presents r rest →
    exec i s = .next t → t.response = some resp →
    (∀ c, resp.nextCursor = some c → c = r.cursor + t.trace.length) ∧
      (∀ v c, resp = .decuc false v c ∨ resp = .decsc false v c →
        v = Config.freeValue s.draws ∧ c = Config.freeCursor s.draws % 2 ^ s.launch.addrWidth)

/-- R25, R70, R104: a checked decode reports `OK = 1` iff the sequence is well-formed, every byte of it lies below the limit
(when there is one) and no model fault ends the operation. -/
def Obligations.OkIffWellFormedAndInBounds : Prop :=
  ∀ (lim signed : Bool) (s t : State) (r : Request) (rest : List HostMove), s.Presents r rest →
    exec (if signed then .decsc lim else .decuc lim) s = .next t →
    ((∃ v c, t.response = some (if signed then .decsc true v c else .decuc true v c)) ↔
      (seqLength (s.bytesFrom r.cursor) = 5 → s.bytesFrom r.cursor 4 &&& 0xF0#8 = 0#8) ∧
        (lim = true → r.cursor + seqLength (s.bytesFrom r.cursor) ≤ r.limit) ∧
        s.ReadableRun r.cursor (seqLength (s.bytesFrom r.cursor)) ∧
        r.cursor + seqLength (s.bytesFrom r.cursor) < 2 ^ s.launch.addrWidth)

/-- R106: with `LIM = 1` and `LIMIT <= CURSOR` the result is `OK = 0` with no access, and that is the one case in which a
decode that responds reads no byte. -/
def Obligations.LimitAtCursorReadsNothing : Prop :=
  (∀ (s : State) (r : Request) (rest : List HostMove), s.Presents r rest → r.limit ≤ r.cursor →
    (∃ t v c, exec (.decuc true) s = .next t ∧ t.trace = [] ∧ t.status = .idle ∧ t.response = some (.decuc false v c)) ∧
      ∃ t v c, exec (.decsc true) s = .next t ∧ t.trace = [] ∧ t.status = .idle ∧
        t.response = some (.decsc false v c)) ∧
  ∀ (i : Instr) (s t : State) (r : Request) (rest : List HostMove), readsMemory i = true → s.Presents r rest →
    exec i s = .next t → t.status = .idle → t.trace = [] → (i = .decuc true ∨ i = .decsc true) ∧ r.limit ≤ r.cursor

/-- R142: which operation raises which model fault, on which condition, with what info and under what code. -/
def Obligations.FaultsAreAsTabled : Prop :=
  (∀ (i : Instr) (s t : State) (r : Request) (rest : List HostMove) (f : Fault), s.Presents r rest → exec i s = .next t →
    t.status = .faulted f →
    (∃ a, f = .memReadFault r.cmd a ∧ readsMemory i = true ∧ s.canRead a = false) ∨
      (∃ a, f = .memWriteFault r.cmd a ∧ i = .encu ∧ s.canWrite a = false) ∨
      (f = .cursorOverflow r.cmd (r.cursor + t.trace.length) ∧ i ≠ .sizeu ∧
        2 ^ s.launch.addrWidth ≤ r.cursor + t.trace.length)) ∧
  (∀ (s t : State) (r : Request) (rest : List HostMove) (cmd : Byte), s.Presents r rest → step s = .next t →
    t.status = .faulted (.illegalCommand cmd) → cmd = r.cmd ∧ ∀ i, decode r.cmd ≠ .ok i) ∧
  ∀ cmd a, (Fault.illegalCommand cmd).code = 1 ∧ (Fault.memReadFault cmd a).code = 2 ∧
    (Fault.memWriteFault cmd a).code = 3 ∧ (Fault.cursorOverflow cmd a).code = 4

/-- R145: a byte at or beyond `LIMIT` never faults, "because it is never read". -/
def Obligations.LimitCheckComesBeforeReadFault : Prop :=
  ∀ (i : Instr) (s t : State) (r : Request) (rest : List HostMove) (cmd : Byte) (a : Nat),
    (i = .decuc true ∨ i = .decsc true) → s.Presents r rest → exec i s = .next t →
    t.status = .faulted (.memReadFault cmd a) → a < r.limit

/-- R143: a model fault delivers no response; a `Faulted` codec accepts no request (it turns it away,
notes/assumptions/8.md) and keeps its record until a reset; the bytes an ENCU wrote before its fault stay written. -/
def Obligations.FaultIsSticky : Prop :=
  (∀ (s t : State) (r : Request) (rest : List HostMove) (f : Fault), s.Presents r rest → step s = .next t →
    t.status = .faulted f → t.response = none) ∧
  (∀ (s : State) (f : Fault) (r : Request) (rest : List HostMove), s.status = .faulted f →
    s.moves = .request r :: rest → r.wellFormed s.launch.addrWidth = true →
    step s = .next { s with moves := rest }) ∧
  (∀ (s t : State) (f : Fault), s.status = .faulted f → step s = .next t →
    (t.status = .faulted f ∧ t.response = s.response) ∨
      (t.status = .idle ∧ ∃ rest, s.moves = .reset :: rest ∨ ∃ r, s.moves = .resetDuring r :: rest)) ∧
  ∀ (s t : State) (r : Request) (rest : List HostMove) (cmd : Byte) (k : Nat), Memory.wf s.mem = true →
    s.Presents r rest → exec .encu s = .next t → t.status = .faulted (.memWriteFault cmd (r.cursor + k)) →
    ∀ j, j < k → t.byteAt (r.cursor + j) = canonicalByte r.value j

/-! ### Reset and the host's own moves -/

/-- R160: a reset leaves the codec `Idle` with no fault recorded, no operation in flight and no response pending, and does
not change memory; a request presented next is accepted. -/
def Obligations.ResetClearsTheCodec : Prop :=
  ∀ (s : State) (rest : List HostMove), (∀ op r x, s.status ≠ .busy op r x) → s.moves = .reset :: rest →
    ∃ t, step s = .next t ∧ t.status = .idle ∧ t.response = none ∧ t.moves = rest ∧ t.mem = s.mem ∧
      t.launch = s.launch ∧
      ∀ r rest' i, rest = .request r :: rest' → r.wellFormed s.launch.addrWidth = true → decode r.cmd = .ok i →
        step t = exec i t

/-- R161: a reset while `Busy` delivers no response; a decode or SIZEU has changed nothing, an ENCU has stored some number of
its bytes in ascending order, from none up to `SIZEU(VALUE)`. First for a request that is presented and reset while the codec
is `Busy` with it; then for a codec that already is `Busy`, with `i` groups done. -/
def Obligations.ResetWhileBusyKeepsSomeWrites : Prop :=
  (∀ (s : State) (r : Request) (rest : List HostMove) (i : Instr), s.status = .idle → s.moves = .resetDuring r :: rest →
    r.wellFormed s.launch.addrWidth = true → decode r.cmd = .ok i →
    ∃ t, step s = .next t ∧ t.status = .idle ∧ t.response = none ∧ t.moves = rest ∧
      (i ≠ .encu → t.mem = s.mem) ∧
      (i = .encu → ∃ k, k ≤ sizeByRange r.value ∧ t.mem = Memory.writeRun s.mem r.cursor (canonicalByte r.value) k)) ∧
  ∀ (s : State) (op : Instr) (r : Request) (x : Transient) (rest : List HostMove), s.Inv → s.status = .busy op r x →
    s.moves = .reset :: rest →
    ∃ t, step s = .next t ∧ t.status = .idle ∧ t.response = none ∧ t.moves = rest ∧
      (op ≠ .encu → t.mem = s.mem) ∧
      (op = .encu → ∃ k, x.i + k ≤ sizeByRange r.value ∧
        t.mem = Memory.writeRun s.mem (r.cursor + x.i) (fun j => canonicalByte r.value (x.i + j)) k)

/-- R20, R53: a host write changes the one byte it writes and nothing else; the next read of that address returns it. That it
may come while the codec is `Faulted` is the model's reading (notes/assumptions/7.md). -/
def Obligations.HostWriteChangesOneByte : Prop :=
  ∀ (s : State) (a : Nat) (b : Byte) (rest : List HostMove), Memory.wf s.mem = true →
    (∀ op r x, s.status ≠ .busy op r x) → s.moves = .write a b :: rest → a < 2 ^ s.launch.addrWidth →
    ∃ t, step s = .next t ∧ t.byteAt a = b ∧ (∀ x, x ≠ a → t.byteAt x = s.byteAt x) ∧
      t = { s with mem := t.mem, moves := rest }

/-- An `Idle` codec with no move to come waits, and a `Faulted` one has ended the run (R163, R143): the model's choice of
outcome (notes/assumptions/8.md). A move no host can make is refused (notes/assumptions/10.md). -/
def Obligations.RunEndsWithTheHostsMoves : Prop :=
  (∀ s : State, s.status = .idle → s.moves = [] → step s = .next s) ∧
  (∀ (s : State) (f : Fault), s.status = .faulted f → s.moves = [] → step s = .fault f) ∧
  ∀ (s : State) (m : HostMove) (rest : List HostMove), (∀ op r x, s.status ≠ .busy op r x) → s.moves = m :: rest →
    m.wellFormed s.launch.addrWidth = false → step s = .refused .malformedMove

/-- A canonical memory is determined by the bytes it gives (R40, R47): equal bytes everywhere, equal data. -/
def Obligations.CanonicalMemoryIsItsBytes : Prop :=
  ∀ m m' : List Host.Cell, Memory.wf m = true → Memory.wf m' = true → (∀ a, Memory.read m a = Memory.read m' a) → m = m'

/-- R23, R62, R65: "A field not read by the selected operation is ignored." A request that differs only in fields the
operation does not read gives the same outcome. -/
def Obligations.UnreadFieldsAreIgnored : Prop :=
  ∀ (i : Instr) (s : State) (r r' : Request) (rest : List HostMove), s.Presents r rest → r'.cmd = r.cmd →
    (i ≠ .sizeu → r'.cursor = r.cursor) →
    (i = .decuc true ∨ i = .decsc true → r'.limit = r.limit) →
    (i = .encu ∨ i = .sizeu → r'.value = r.value) →
    exec i { s with moves := .request r' :: rest } = exec i s

/-! ### Relations between the operations -/

/-- R81: `SignExtendGroups(acc, N)` is `acc` for `N = 5`; for `N` in 1..4 and `acc < 2^(7N)` it is `acc` where bit `7N-1` is
clear and `acc - 2^(7N)` (mod `2^32`) where it is set. -/
def Obligations.SignExtensionClosedForm : Prop :=
  (∀ acc : Word, signExtendGroups acc 5 = acc) ∧
  ∀ (acc : Word) (n : Nat), 1 ≤ n → n ≤ 4 → acc.toNat < 2 ^ (7 * n) →
    signExtendGroups acc n =
      if acc.getLsbD (7 * n - 1) then acc - BitVec.ofNat 32 (2 ^ (7 * n)) else acc

/-- R87: the two unchecked decodes read the same bytes and give the same `CURSOR_OUT` or the same fault; the signed value is
the sign extension of the unsigned one, and they agree for `N = 5` and where bit `7N-1` is clear. -/
def Obligations.SignedDecodeExtendsUnsigned : Prop :=
  ∀ (s t : State) (r : Request) (rest : List HostMove), s.Presents r rest → exec .decu s = .next t →
    ∃ t', exec .decs s = .next t' ∧ t'.trace = t.trace ∧ t'.status = t.status ∧
      (t.response = none → t'.response = none) ∧
      ∀ v c, t.response = some (.decu v c) →
        t'.response = some (.decs (signExtendGroups v (c - r.cursor)) c) ∧
          (c - r.cursor = 5 ∨ v.getLsbD (7 * (c - r.cursor) - 1) = false → signExtendGroups v (c - r.cursor) = v)

/-- R85: the fifth byte's bits `[7:4]` never change an unchecked result. -/
def Obligations.FifthByteHighNibbleIsIgnored : Prop :=
  ∀ (i : Instr) (s t : State) (r : Request) (rest : List HostMove) (x y : Byte), (i = .decu ∨ i = .decs) →
    Memory.wf s.mem = true → s.Presents r rest →
    (∀ k, k < 4 → continues (s.bytesFrom r.cursor k) = true) → lowNibble x = lowNibble y →
    exec i (s.hostWrite (r.cursor + 4) x) = .next t →
    ∃ t', exec i (s.hostWrite (r.cursor + 4) y) = .next t' ∧ t'.response = t.response ∧ t'.status = t.status ∧
      t'.trace = t.trace

/-- R108: where a checked decode reports `OK = 1`, the matching unchecked decode gives the same value and cursor; where the
fifth-byte check fails it, the unchecked decode still gives the tolerant value, unless the advanced cursor is not
representable (R144; notes/assumptions/11.md). -/
def Obligations.CheckedAgreesWithUnchecked : Prop :=
  ∀ (lim : Bool) (s : State) (r : Request) (rest : List HostMove), s.Presents r rest →
    (∀ t v c, exec (.decuc lim) s = .next t → t.response = some (.decuc true v c) →
      ∃ t', exec .decu s = .next t' ∧ t'.response = some (.decu v c)) ∧
    (∀ t v c, exec (.decsc lim) s = .next t → t.response = some (.decsc true v c) →
      ∃ t', exec .decs s = .next t' ∧ t'.response = some (.decs v c)) ∧
    (∀ t v c, exec (.decuc lim) s = .next t → t.response = some (.decuc false v c) → t.trace.length = 5 →
      r.cursor + 5 < 2 ^ s.launch.addrWidth →
      ∃ t', exec .decu s = .next t' ∧ t'.response = some (.decu (placedValue (s.bytesFrom r.cursor) 5) (r.cursor + 5))) ∧
    ∀ t v c, exec (.decsc lim) s = .next t → t.response = some (.decsc false v c) → t.trace.length = 5 →
      r.cursor + 5 < 2 ^ s.launch.addrWidth →
      ∃ t', exec .decs s = .next t' ∧ t'.response = some (.decs (placedSigned (s.bytesFrom r.cursor) 5) (r.cursor + 5))

/-- R71: what ENCU leaves is canonical. As a sequence it has length `SIZEU(VALUE)`; every byte but the last has bit 7 set, the
last has it clear and is nonzero unless the value is 0; for `N = 5` the last byte is `v[31:28]`, in `0x01..0x0F`. -/
def Obligations.EncodingIsCanonical : Prop :=
  ∀ (s t : State) (r : Request) (rest : List HostMove), Memory.wf s.mem = true → s.Presents r rest →
    exec .encu s = .next t → t.status = .idle →
    seqLength (t.bytesFrom r.cursor) = sizeByRange r.value ∧
      (∀ k, k + 1 < sizeByRange r.value → continues (t.bytesFrom r.cursor k) = true) ∧
      continues (t.bytesFrom r.cursor (sizeByRange r.value - 1)) = false ∧
      (r.value ≠ 0#32 → t.bytesFrom r.cursor (sizeByRange r.value - 1) ≠ 0#8) ∧
      (sizeByRange r.value = 5 → (t.bytesFrom r.cursor 4).toNat = r.value.toNat / 2 ^ 28 ∧
        1 ≤ (t.bytesFrom r.cursor 4).toNat ∧ (t.bytesFrom r.cursor 4).toNat ≤ 15)

/-- R71, R123: ENCU's form is the unique minimal one. A sequence that DECU reads as `v` has at least `SIZEU(v)` bytes; one of
exactly that many (with a clear high nibble in a fifth byte) has ENCU's bytes. -/
def Obligations.EncodingIsUniqueMinimal : Prop :=
  ∀ (s t : State) (r : Request) (rest : List HostMove) (v : Word) (c : Nat), s.Presents r rest → exec .decu s = .next t →
    t.response = some (.decu v c) →
    sizeByRange v ≤ c - r.cursor ∧
      (c - r.cursor = sizeByRange v → (sizeByRange v = 5 → highNibble (s.bytesFrom r.cursor 4) = 0#4) →
        ∀ k, k < sizeByRange v → s.bytesFrom r.cursor k = canonicalByte v k)

/-- R123: SIZEU predicts the number of bytes ENCU writes for the same value. -/
def Obligations.SizePredictsEncoder : Prop :=
  ∀ (s t s' t' : State) (r r' : Request) (rest rest' : List HostMove) (n : BitVec 3), s.Presents r rest →
    s'.Presents r' rest' → r'.value = r.value → exec .encu s = .next t → t.status = .idle → exec .sizeu s' = .next t' →
    t'.response = some (.sizeu n) → t.trace.length = n.toNat

/-- R124: the unsigned round trip. After an ENCU at `CURSOR` that responded, a DECU at the same cursor of any later state whose
bytes there are the ones ENCU left, and readable, gives the value and the same cursor; so does DECUC with `OK = 1`, without
a limit or with one at least `CURSOR + SIZEU(v)`. -/
def Obligations.UnsignedRoundTrip : Prop :=
  ∀ (s t s' : State) (r r' : Request) (rest rest' : List HostMove), Memory.wf s.mem = true → s.Presents r rest →
    exec .encu s = .next t → t.status = .idle →
    s'.Presents r' rest' → r'.cursor = r.cursor → s'.launch.addrWidth = s.launch.addrWidth →
    s'.ReadableRun r.cursor (sizeByRange r.value) →
    (∀ k, k < sizeByRange r.value → s'.byteAt (r.cursor + k) = t.byteAt (r.cursor + k)) →
    exec .decu s' = .next (s'.responded rest' (readsFrom r.cursor (sizeByRange r.value))
        (.decu r.value (r.cursor + sizeByRange r.value))) ∧
      ∀ lim, (lim = true → r.cursor + sizeByRange r.value ≤ r'.limit) →
        exec (.decuc lim) s' = .next (s'.responded rest' (readsFrom r.cursor (sizeByRange r.value))
          (.decuc true r.value (r.cursor + sizeByRange r.value)))

/-- R125: a DECS of the bytes ENCU wrote for `u` gives `u` back iff `N = 5`, or `N < 5` and `u[7N-1] = 0`; otherwise it gives
`u - 2^(7N)`, which is the case exactly on the four ranges. -/
def Obligations.SignedRoundTripOnItsRanges : Prop :=
  ∀ (s t s' : State) (r r' : Request) (rest rest' : List HostMove), Memory.wf s.mem = true → s.Presents r rest →
    exec .encu s = .next t → t.status = .idle →
    s'.Presents r' rest' → r'.cursor = r.cursor → s'.launch.addrWidth = s.launch.addrWidth →
    s'.ReadableRun r.cursor (sizeByRange r.value) →
    (∀ k, k < sizeByRange r.value → s'.byteAt (r.cursor + k) = t.byteAt (r.cursor + k)) →
    ∃ v, exec .decs s' = .next (s'.responded rest' (readsFrom r.cursor (sizeByRange r.value))
        (.decs v (r.cursor + sizeByRange r.value))) ∧
      (v = r.value ↔ sizeByRange r.value = 5 ∨ r.value.getLsbD (7 * sizeByRange r.value - 1) = false) ∧
      (v ≠ r.value ↔
        (64 ≤ r.value.toNat ∧ r.value.toNat ≤ 127) ∨ (8192 ≤ r.value.toNat ∧ r.value.toNat ≤ 16383) ∨
          (1048576 ≤ r.value.toNat ∧ r.value.toNat ≤ 2097151) ∨
          (134217728 ≤ r.value.toNat ∧ r.value.toNat ≤ 268435455)) ∧
      (v ≠ r.value → v.toInt = (r.value.toNat : Int) - 2 ^ (7 * sizeByRange r.value) ∧ v.toInt < 0) ∧
      (r.value.toInt < 0 ∨ 2 ^ 28 ≤ r.value.toInt → sizeByRange r.value = 5)
end

