-- ==== Sys2Proof/Laws/Format.lean ====
section
/-!
SUPPORT. The LEB128 format: the group-by-group forms the meanings compute (R80, R81, R120, R121) against the closed forms
the statements use (R67 to R71, R122).
-/

namespace Sys2Proof.Machine

/-! ### The length of a sequence (R67) -/

theorem seqLength_pos (f : Nat → Byte) : 1 ≤ seqLength f := by
  unfold seqLength; repeat' split
  all_goals omega

theorem seqLength_le (f : Nat → Byte) : seqLength f ≤ 5 := by
  unfold seqLength; repeat' split
  all_goals omega

/-- Every byte before the last has its continuation bit set. -/
theorem continues_of_lt_seqLength (f : Nat → Byte) (k : Nat) (hk : k + 1 < seqLength f) : continues (f k) = true := by
  unfold seqLength at hk
  repeat' split at hk
  all_goals first
    | omega
    | (obtain rfl | rfl | rfl | rfl : k = 0 ∨ k = 1 ∨ k = 2 ∨ k = 3 := by omega) <;> first | assumption | omega

/-- The last byte of a sequence of fewer than five has its continuation bit clear. -/
theorem not_continues_last (f : Nat → Byte) (k : Nat) (hk : seqLength f = k + 1) (h4 : k < 4) :
    continues (f k) = false := by
  unfold seqLength at hk
  cases c0 : continues (f 0) <;> cases c1 : continues (f 1) <;> cases c2 : continues (f 2) <;>
    cases c3 : continues (f 3) <;> simp only [c0, c1, c2, c3, if_true, if_false, Bool.false_eq_true] at hk <;>
    first
    | (obtain rfl : k = 0 := by omega
       exact c0)
    | (obtain rfl : k = 1 := by omega
       exact c1)
    | (obtain rfl : k = 2 := by omega
       exact c2)
    | (obtain rfl : k = 3 := by omega
       exact c3)
    | omega

/-- The length is fixed by the bytes of the sequence alone. -/
theorem seqLength_congr (f g : Nat → Byte) (h : ∀ k, k < seqLength f → g k = f k) : seqLength g = seqLength f := by
  have h0 := h 0
  have h1 := h 1
  have h2 := h 2
  have h3 := h 3
  unfold seqLength at *
  cases c0 : continues (f 0) <;> cases c1 : continues (f 1) <;> cases c2 : continues (f 2) <;>
    cases c3 : continues (f 3) <;> simp [c0, c1, c2, c3] at h0 h1 h2 h3 ⊢ <;> simp [*]

/-! ### The accumulator (R80) against the placement table (R69) -/

/-- The accumulator after `k` groups. -/
def groupsPlaced (f : Nat → Byte) : Nat → Word
  | 0 => 0#32
  | k + 1 => placeGroup (groupsPlaced f k) k (f k)

/-- The accumulator at the end of a sequence of `n` bytes. -/
def accumulated (f : Nat → Byte) (n : Nat) : Word :=
  if n = 5 then placeLast (groupsPlaced f 4) (f 4) else groupsPlaced f n

/-- Setting a group above an accumulator of `w` bits is a concatenation. -/
theorem or_shift_eq_append {w v : Nat} (hi : BitVec v) (lo : BitVec w) (n : Nat) :
    lo.setWidth n ||| (hi.setWidth n <<< w) = (hi ++ lo).setWidth n := by
  apply BitVec.eq_of_getLsbD_eq
  intro i hin
  simp only [BitVec.getLsbD_or, BitVec.getLsbD_setWidth, BitVec.getLsbD_shiftLeft, BitVec.getLsbD_append, hin,
    decide_true, Bool.true_and]
  by_cases h : i < w
  · simp [h]
  · have h2 : i - w < n := by omega
    simp [h, h2, BitVec.getLsbD_of_ge lo i (by omega)]

theorem groupsPlaced_one (f : Nat → Byte) : groupsPlaced f 1 = placedValue f 1 := by
  simp [groupsPlaced, placeGroup, placedValue]

theorem groupsPlaced_two (f : Nat → Byte) : groupsPlaced f 2 = placedValue f 2 := by
  rw [groupsPlaced, groupsPlaced_one]
  exact or_shift_eq_append (payload (f 1)) (payload (f 0)) 32

theorem groupsPlaced_three (f : Nat → Byte) : groupsPlaced f 3 = placedValue f 3 := by
  rw [groupsPlaced, groupsPlaced_two]
  exact or_shift_eq_append (payload (f 2)) (payload (f 1) ++ payload (f 0)) 32

theorem groupsPlaced_four (f : Nat → Byte) : groupsPlaced f 4 = placedValue f 4 := by
  rw [groupsPlaced, groupsPlaced_three]
  exact or_shift_eq_append (payload (f 3)) (payload (f 2) ++ (payload (f 1) ++ payload (f 0))) 32

/-- The accumulator at the end of a sequence is the value of R69's table. -/
theorem accumulated_eq_placedValue (f : Nat → Byte) (n : Nat) (h1 : 1 ≤ n) (h5 : n ≤ 5) :
    accumulated f n = placedValue f n := by
  obtain rfl | rfl | rfl | rfl | rfl : n = 1 ∨ n = 2 ∨ n = 3 ∨ n = 4 ∨ n = 5 := by omega
  · exact groupsPlaced_one f
  · exact groupsPlaced_two f
  · exact groupsPlaced_three f
  · exact groupsPlaced_four f
  · show placeLast (groupsPlaced f 4) (f 4) = _
    rw [groupsPlaced_four]
    exact or_shift_eq_append (lowNibble (f 4)) (payload (f 3) ++ (payload (f 2) ++ (payload (f 1) ++ payload (f 0)))) 32

/-! ### The sign extension (R81) -/

/-- Shifting a `w`-bit value to the top of a word and arithmetically back is sign extension from bit `w - 1`. -/
theorem shift_pair_eq_signExtend {w : Nat} (x : BitVec w) (h0 : 0 < w) (h : w ≤ 32) :
    (x.setWidth 32 <<< (32 - w)).sshiftRight (32 - w) = x.signExtend 32 := by
  apply BitVec.eq_of_getLsbD_eq
  intro i hi
  rw [BitVec.getLsbD_sshiftRight, BitVec.getLsbD_signExtend, BitVec.msb_eq_getLsbD_last]
  simp only [BitVec.getLsbD_shiftLeft, BitVec.getLsbD_setWidth, hi, decide_true, Bool.true_and]
  have hnot : ¬ 32 ≤ i := by omega
  by_cases hw : i < w
  · have h1 : 32 - w + i < 32 := by omega
    have h2 : ¬ (32 - w + i < 32 - w) := by omega
    have h3 : 32 - w + i - (32 - w) = i := by omega
    simp [hnot, hw, h1, h2, h3, hi]
  · have h1 : ¬ (32 - w + i < 32) := by omega
    have h4 : ¬ (31 < 32 - w) := by omega
    have h5 : 31 - (32 - w) = w - 1 := by omega
    simp [hnot, hw, h1, h4, h5, BitVec.msb_eq_getLsbD_last]
    omega

/-- `SignExtendGroups` of the accumulator is the signed value of R81. -/
theorem signExtendGroups_placedValue (f : Nat → Byte) (n : Nat) (h1 : 1 ≤ n) (h5 : n ≤ 5) :
    signExtendGroups (placedValue f n) n = placedSigned f n := by
  obtain rfl | rfl | rfl | rfl | rfl : n = 1 ∨ n = 2 ∨ n = 3 ∨ n = 4 ∨ n = 5 := by omega
  · exact shift_pair_eq_signExtend (payload (f 0)) (by omega) (by omega)
  · exact shift_pair_eq_signExtend (payload (f 1) ++ payload (f 0)) (by omega) (by omega)
  · exact shift_pair_eq_signExtend (payload (f 2) ++ (payload (f 1) ++ payload (f 0))) (by omega) (by omega)
  · exact shift_pair_eq_signExtend (payload (f 3) ++ (payload (f 2) ++ (payload (f 1) ++ payload (f 0)))) (by omega)
      (by omega)
  · rfl

/-- The value of a decode that ends well is the placed value. -/
theorem decodeValue_accumulated (signed : Bool) (f : Nat → Byte) :
    decodeValue signed (accumulated f (seqLength f)) (seqLength f) = placed signed f (seqLength f) := by
  rw [accumulated_eq_placedValue f _ (seqLength_pos f) (seqLength_le f)]
  cases signed
  · rfl
  · exact signExtendGroups_placedValue f _ (seqLength_pos f) (seqLength_le f)

/-- The value is fixed by the bytes of the sequence alone. -/
theorem placed_congr (signed : Bool) (f g : Nat → Byte) (h : ∀ k, k < seqLength f → g k = f k) :
    placed signed g (seqLength f) = placed signed f (seqLength f) := by
  have hp := seqLength_pos f
  have hl := seqLength_le f
  generalize seqLength f = n at *
  obtain rfl | rfl | rfl | rfl | rfl : n = 1 ∨ n = 2 ∨ n = 3 ∨ n = 4 ∨ n = 5 := by omega
  all_goals
    have h0 := h 0 (by omega)
    cases signed <;> simp [placed, placedValue, placedSigned, h]

end Sys2Proof.Machine
end

