-- ==== Sys2Proof/Laws/State.lean ====
section
/-!
SUPPORT. One lemma per field per update of the state, so that no proof unfolds a record update.
-/

namespace Sys2Proof.Machine

variable (s : State)

@[simp] theorem State.raise_launch (f : Fault) : (s.raise f).launch = s.launch := rfl
@[simp] theorem State.raise_mem (f : Fault) : (s.raise f).mem = s.mem := rfl
@[simp] theorem State.raise_status (f : Fault) : (s.raise f).status = .faulted f := rfl
@[simp] theorem State.raise_response (f : Fault) : (s.raise f).response = none := rfl
@[simp] theorem State.raise_trace (f : Fault) : (s.raise f).trace = s.trace := rfl
@[simp] theorem State.raise_moves (f : Fault) : (s.raise f).moves = s.moves := rfl
@[simp] theorem State.raise_draws (f : Fault) : (s.raise f).draws = s.draws := rfl

@[simp] theorem State.respond_launch (resp : Response) : (s.respond resp).launch = s.launch := rfl
@[simp] theorem State.respond_mem (resp : Response) : (s.respond resp).mem = s.mem := rfl
@[simp] theorem State.respond_status (resp : Response) : (s.respond resp).status = .idle := rfl
@[simp] theorem State.respond_response (resp : Response) : (s.respond resp).response = some resp := rfl
@[simp] theorem State.respond_trace (resp : Response) : (s.respond resp).trace = s.trace := rfl
@[simp] theorem State.respond_moves (resp : Response) : (s.respond resp).moves = s.moves := rfl
@[simp] theorem State.respond_draws (resp : Response) : (s.respond resp).draws = s.draws := rfl

@[simp] theorem State.keepBusy_launch (op : Instr) (r : Request) (t : Transient) : (s.keepBusy op r t).launch = s.launch := rfl
@[simp] theorem State.keepBusy_mem (op : Instr) (r : Request) (t : Transient) : (s.keepBusy op r t).mem = s.mem := rfl
@[simp] theorem State.keepBusy_status (op : Instr) (r : Request) (t : Transient) : (s.keepBusy op r t).status = .busy op r t := rfl
@[simp] theorem State.keepBusy_response (op : Instr) (r : Request) (t : Transient) : (s.keepBusy op r t).response = s.response := rfl
@[simp] theorem State.keepBusy_trace (op : Instr) (r : Request) (t : Transient) : (s.keepBusy op r t).trace = s.trace := rfl
@[simp] theorem State.keepBusy_moves (op : Instr) (r : Request) (t : Transient) : (s.keepBusy op r t).moves = s.moves := rfl
@[simp] theorem State.keepBusy_draws (op : Instr) (r : Request) (t : Transient) : (s.keepBusy op r t).draws = s.draws := rfl

@[simp] theorem State.accept_launch (op : Instr) (r : Request) (rest : List HostMove) : (s.accept op r rest).launch = s.launch := rfl
@[simp] theorem State.accept_mem (op : Instr) (r : Request) (rest : List HostMove) : (s.accept op r rest).mem = s.mem := rfl
@[simp] theorem State.accept_status (op : Instr) (r : Request) (rest : List HostMove) : (s.accept op r rest).status = .busy op r (Transient.init r) := rfl
@[simp] theorem State.accept_response (op : Instr) (r : Request) (rest : List HostMove) : (s.accept op r rest).response = none := rfl
@[simp] theorem State.accept_trace (op : Instr) (r : Request) (rest : List HostMove) : (s.accept op r rest).trace = [] := rfl
@[simp] theorem State.accept_moves (op : Instr) (r : Request) (rest : List HostMove) : (s.accept op r rest).moves = rest := rfl
@[simp] theorem State.accept_draws (op : Instr) (r : Request) (rest : List HostMove) : (s.accept op r rest).draws = s.draws := rfl

@[simp] theorem State.hostReset_launch : (s.hostReset).launch = s.launch := rfl
@[simp] theorem State.hostReset_mem : (s.hostReset).mem = s.mem := rfl
@[simp] theorem State.hostReset_status : (s.hostReset).status = .idle := rfl
@[simp] theorem State.hostReset_response : (s.hostReset).response = none := rfl
@[simp] theorem State.hostReset_trace : (s.hostReset).trace = [] := rfl
@[simp] theorem State.hostReset_moves : (s.hostReset).moves = s.moves := rfl
@[simp] theorem State.hostReset_draws : (s.hostReset).draws = s.draws := rfl

@[simp] theorem State.hostWrite_launch (a : Nat) (b : Byte) : (s.hostWrite a b).launch = s.launch := rfl
@[simp] theorem State.hostWrite_mem (a : Nat) (b : Byte) : (s.hostWrite a b).mem = Memory.write s.mem a b := rfl
@[simp] theorem State.hostWrite_status (a : Nat) (b : Byte) : (s.hostWrite a b).status = s.status := rfl
@[simp] theorem State.hostWrite_response (a : Nat) (b : Byte) : (s.hostWrite a b).response = s.response := rfl
@[simp] theorem State.hostWrite_trace (a : Nat) (b : Byte) : (s.hostWrite a b).trace = s.trace := rfl
@[simp] theorem State.hostWrite_moves (a : Nat) (b : Byte) : (s.hostWrite a b).moves = s.moves := rfl
@[simp] theorem State.hostWrite_draws (a : Nat) (b : Byte) : (s.hostWrite a b).draws = s.draws := rfl

@[simp] theorem State.turnAway_launch (rest : List HostMove) : (s.turnAway rest).launch = s.launch := rfl
@[simp] theorem State.turnAway_mem (rest : List HostMove) : (s.turnAway rest).mem = s.mem := rfl
@[simp] theorem State.turnAway_status (rest : List HostMove) : (s.turnAway rest).status = s.status := rfl
@[simp] theorem State.turnAway_response (rest : List HostMove) : (s.turnAway rest).response = s.response := rfl
@[simp] theorem State.turnAway_trace (rest : List HostMove) : (s.turnAway rest).trace = s.trace := rfl
@[simp] theorem State.turnAway_moves (rest : List HostMove) : (s.turnAway rest).moves = rest := rfl
@[simp] theorem State.turnAway_draws (rest : List HostMove) : (s.turnAway rest).draws = s.draws := rfl

@[simp] theorem State.responded_launch (rest : List HostMove) (tr : List Access) (resp : Response) : (s.responded rest tr resp).launch = s.launch := rfl
@[simp] theorem State.responded_mem (rest : List HostMove) (tr : List Access) (resp : Response) : (s.responded rest tr resp).mem = s.mem := rfl
@[simp] theorem State.responded_status (rest : List HostMove) (tr : List Access) (resp : Response) : (s.responded rest tr resp).status = .idle := rfl
@[simp] theorem State.responded_response (rest : List HostMove) (tr : List Access) (resp : Response) : (s.responded rest tr resp).response = some resp := rfl
@[simp] theorem State.responded_trace (rest : List HostMove) (tr : List Access) (resp : Response) : (s.responded rest tr resp).trace = tr := rfl
@[simp] theorem State.responded_moves (rest : List HostMove) (tr : List Access) (resp : Response) : (s.responded rest tr resp).moves = rest := rfl
@[simp] theorem State.responded_draws (rest : List HostMove) (tr : List Access) (resp : Response) : (s.responded rest tr resp).draws = s.draws := rfl

@[simp] theorem State.stopped_launch (rest : List HostMove) (tr : List Access) (f : Fault) : (s.stopped rest tr f).launch = s.launch := rfl
@[simp] theorem State.stopped_mem (rest : List HostMove) (tr : List Access) (f : Fault) : (s.stopped rest tr f).mem = s.mem := rfl
@[simp] theorem State.stopped_status (rest : List HostMove) (tr : List Access) (f : Fault) : (s.stopped rest tr f).status = .faulted f := rfl
@[simp] theorem State.stopped_response (rest : List HostMove) (tr : List Access) (f : Fault) : (s.stopped rest tr f).response = none := rfl
@[simp] theorem State.stopped_trace (rest : List HostMove) (tr : List Access) (f : Fault) : (s.stopped rest tr f).trace = tr := rfl
@[simp] theorem State.stopped_moves (rest : List HostMove) (tr : List Access) (f : Fault) : (s.stopped rest tr f).moves = rest := rfl
@[simp] theorem State.stopped_draws (rest : List HostMove) (tr : List Access) (f : Fault) : (s.stopped rest tr f).draws = s.draws := rfl

@[simp] theorem State.stored_launch (c : Nat) (g : Nat → Byte) (n : Nat) : (s.stored c g n).launch = s.launch := rfl
@[simp] theorem State.stored_mem (c : Nat) (g : Nat → Byte) (n : Nat) : (s.stored c g n).mem = Memory.writeRun s.mem c g n := rfl
@[simp] theorem State.stored_status (c : Nat) (g : Nat → Byte) (n : Nat) : (s.stored c g n).status = s.status := rfl
@[simp] theorem State.stored_response (c : Nat) (g : Nat → Byte) (n : Nat) : (s.stored c g n).response = s.response := rfl
@[simp] theorem State.stored_trace (c : Nat) (g : Nat → Byte) (n : Nat) : (s.stored c g n).trace = s.trace := rfl
@[simp] theorem State.stored_moves (c : Nat) (g : Nat → Byte) (n : Nat) : (s.stored c g n).moves = s.moves := rfl
@[simp] theorem State.stored_draws (c : Nat) (g : Nat → Byte) (n : Nat) : (s.stored c g n).draws = s.draws := rfl

/-! ### Admission and stored bytes depend on the launch parameters and on memory alone -/

theorem State.canRead_congr (s t : State) (h : t.launch = s.launch) (a : Nat) : t.canRead a = s.canRead a := by
  simp only [State.canRead, h]

theorem State.canWrite_congr (s t : State) (h : t.launch = s.launch) (a : Nat) : t.canWrite a = s.canWrite a := by
  simp only [State.canWrite, h]

theorem State.byteAt_congr (s t : State) (h : t.mem = s.mem) (a : Nat) : t.byteAt a = s.byteAt a := by
  simp only [State.byteAt, h]

theorem State.canRead_lt (s : State) (a : Nat) (h : s.canRead a = true) : a < 2 ^ s.launch.addrWidth := by
  simp only [State.canRead, Launch.admits, Bool.and_eq_true, decide_eq_true_eq] at h
  exact h.1

theorem State.canWrite_lt (s : State) (a : Nat) (h : s.canWrite a = true) : a < 2 ^ s.launch.addrWidth := by
  simp only [State.canWrite, Launch.admits, Bool.and_eq_true, decide_eq_true_eq] at h
  exact h.1

end Sys2Proof.Machine
end

