-- ==== Sys2Proof/Laws/Ops.lean ====
section
/-!
SUPPORT. What each shared operation can do, once: the two primitives of memory, `Finish`, `invalid`, the loop of a `Busy`
codec and the acceptance of a request.
-/

namespace Sys2Proof.Machine

/-- A read is admitted and gives the stored byte, recorded, or it does not happen. -/
theorem State.memRead_admitted (s : State) (a : Nat) (h : s.canRead a = true) :
    s.memRead a = some (s.byteAt a, { s with trace := s.trace ++ [Access.read a] }) := by
  rw [State.memRead, if_pos h]

theorem State.memRead_refused (s : State) (a : Nat) (h : s.canRead a = false) : s.memRead a = none := by
  rw [State.memRead, h]; rfl

theorem State.memWrite_admitted (s : State) (a : Nat) (b : Byte) (h : s.canWrite a = true) :
    s.memWrite a b =
      some { s with mem := Memory.write s.mem a b, trace := s.trace ++ [Access.write a b] } := by
  rw [State.memWrite, if_pos h]

theorem State.memWrite_refused (s : State) (a : Nat) (b : Byte) (h : s.canWrite a = false) :
    s.memWrite a b = none := by
  rw [State.memWrite, h]; rfl

/-- `Finish` where the advanced cursor is representable (R82). -/
theorem State.finish_fits (s : State) (r : Request) (n : Nat) (resp : Nat → Response)
    (h : r.cursor + n < 2 ^ s.launch.addrWidth) : s.finish r n resp = s.respond (resp (r.cursor + n)) := by
  rw [State.finish, if_neg (by omega)]

/-- `Finish` where it is not (R144). -/
theorem State.finish_overflows (s : State) (r : Request) (n : Nat) (resp : Nat → Response)
    (h : 2 ^ s.launch.addrWidth ≤ r.cursor + n) :
    s.finish r n resp = s.raise (.cursorOverflow r.cmd (r.cursor + n)) := by
  rw [State.finish, if_pos h]

/-- `Finish` responds or raises, and touches nothing but status and response. -/
theorem State.finish_cases (s : State) (r : Request) (n : Nat) (resp : Nat → Response) :
    (r.cursor + n < 2 ^ s.launch.addrWidth ∧ s.finish r n resp = s.respond (resp (r.cursor + n))) ∨
      (2 ^ s.launch.addrWidth ≤ r.cursor + n ∧ s.finish r n resp = s.raise (.cursorOverflow r.cmd (r.cursor + n))) := by
  rcases Nat.lt_or_ge (r.cursor + n) (2 ^ s.launch.addrWidth) with h | h
  · exact .inl ⟨h, s.finish_fits r n resp h⟩
  · exact .inr ⟨h, s.finish_overflows r n resp h⟩

/-! ### The loop -/

theorem runBusy_idle (tick : Request → Transient → State → State) (n : Nat) (s : State) (h : s.status = .idle) :
    runBusy tick n s = s := by
  cases n with
  | zero => rfl
  | succ n => rw [runBusy, h]

theorem runBusy_faulted (tick : Request → Transient → State → State) (n : Nat) (s : State) (f : Fault)
    (h : s.status = .faulted f) : runBusy tick n s = s := by
  cases n with
  | zero => rfl
  | succ n => rw [runBusy, h]

theorem runBusy_busy (tick : Request → Transient → State → State) (n : Nat) (s : State) (op : Instr) (r : Request)
    (t : Transient) (h : s.status = .busy op r t) :
    runBusy tick (n + 1) s = runBusy tick n (tick r t s) := by
  rw [runBusy, h]

/-- A property that one iteration keeps holds after any number of them. -/
theorem runBusy_keeps (tick : Request → Transient → State → State) (P : State → Prop)
    (step : ∀ s op r t, s.status = .busy op r t → P s → P (tick r t s)) (n : Nat) (s : State) (h : P s) :
    P (runBusy tick n s) := by
  induction n generalizing s with
  | zero => exact h
  | succ n ih =>
    cases hs : s.status with
    | idle => rw [runBusy_idle tick _ s hs]; exact h
    | faulted f => rw [runBusy_faulted tick _ s f hs]; exact h
    | busy op r t => rw [runBusy_busy tick n s op r t hs]; exact ih _ (step s op r t hs h)

/-! ### The acceptance of a request -/

/-- A meaning runs where a request is presented. -/
theorem State.serve_presented (s : State) (r : Request) (rest : List HostMove) (op : Instr)
    (tick : Request → Transient → State → State) (h : s.Presents r rest) :
    s.serve op tick = .next (runBusy tick Config.maxBytes (s.accept op r rest)) := by
  rw [State.serve, h.1, h.2]

/-- A meaning that answers a next state ran on a request presented to an `Idle` codec. -/
theorem State.serve_next (s t : State) (op : Instr) (tick : Request → Transient → State → State)
    (h : s.serve op tick = .next t) :
    ∃ r rest, s.Presents r rest ∧ t = runBusy tick Config.maxBytes (s.accept op r rest) := by
  unfold State.serve at h
  split at h
  · rename_i r rest hs hm
    cases h
    exact ⟨r, rest, ⟨hs, hm⟩, rfl⟩
  · cases h

end Sys2Proof.Machine
end

