-- ==== Sys2Proof/Laws/DecodeOps.lean ====
section
/-!
SUPPORT. The loop the four decodes share (R80), run from the acceptance of the request to each of the ends it can have,
for any of the decodes. The ends are told in the terms of Sys2Proof/Safety.lean.
-/

namespace Sys2Proof.Machine

/-- Nothing stops a decode before byte `k`: each earlier byte is admitted by the limit and readable (R102, R45). -/
def ReachesByte (checked lim : Bool) (r : Request) (s : State) (k : Nat) : Prop :=
  ∀ j, j < k → pastLimit checked lim r (r.cursor + j) = false ∧ s.canRead (r.cursor + j) = true

/-- The state of a decode that has read `k` bytes and goes on. -/
def State.afterGroups (s : State) (op : Instr) (r : Request) (rest : List HostMove) (k : Nat) : State :=
  { s with
    status := .busy op r { acc := groupsPlaced (s.bytesFrom r.cursor) k, i := k, rem := r.value }
    response := none
    trace := readsFrom r.cursor k
    moves := rest }

theorem readsFrom_succ (c n : Nat) : readsFrom c (n + 1) = readsFrom c n ++ [Access.read (c + n)] := by
  simp [readsFrom, List.range_succ]

section
variable (op : Instr) (checked lim signed : Bool) (r : Request) (rest : List HostMove) (s : State)

theorem State.afterGroups_zero : s.afterGroups op r rest 0 = s.accept op r rest := rfl

/-- One iteration that goes on (R80). -/
theorem decodeTick_more (k : Nat) (hk : k < 4) (hl : pastLimit checked lim r (r.cursor + k) = false)
    (hr : s.canRead (r.cursor + k) = true) (hc : continues (s.bytesFrom r.cursor k) = true) :
    decodeTick op checked lim signed r
        { acc := groupsPlaced (s.bytesFrom r.cursor) k, i := k, rem := r.value } (s.afterGroups op r rest k) =
      s.afterGroups op r rest (k + 1) := by
  have hread : (s.afterGroups op r rest k).memRead (r.cursor + k) =
      some (s.bytesFrom r.cursor k,
        { s.afterGroups op r rest k with trace := readsFrom r.cursor k ++ [Access.read (r.cursor + k)] }) :=
    State.memRead_admitted _ _ hr
  simp only [decodeTick, hl, hread, groupStep, hk, hc, if_true, Bool.false_eq_true, if_false]
  simp only [State.keepBusy, State.afterGroups, readsFrom_succ, groupsPlaced]

/-- A decode that nothing stops before byte `k`, all of whose earlier bytes continue, reaches byte `k`. -/
theorem runBusy_decodeTick_reaches (m k : Nat) (hk : k ≤ 4) (hreach : ReachesByte checked lim r s k)
    (hc : ∀ j, j < k → continues (s.bytesFrom r.cursor j) = true) :
    runBusy (decodeTick op checked lim signed) (m + k) (s.accept op r rest) =
      runBusy (decodeTick op checked lim signed) m (s.afterGroups op r rest k) := by
  induction k generalizing m with
  | zero => rfl
  | succ k ih =>
    have h := ih (m + 1) (by omega) (fun j hj => hreach j (by omega)) (fun j hj => hc j (by omega))
    rw [show m + (k + 1) = m + 1 + k by omega, h, runBusy_busy _ _ _ op r _ rfl]
    congr 1
    exact decodeTick_more op checked lim signed r rest s k (by omega) (hreach k (by omega)).1
      (hreach k (by omega)).2 (hc k (by omega))

/-- The last iteration of a decode, whatever it does: the run is one more iteration from byte `k`. -/
theorem runBusy_decodeTick_last (k : Nat) (hk : k ≤ 4) (hreach : ReachesByte checked lim r s k)
    (hc : ∀ j, j < k → continues (s.bytesFrom r.cursor j) = true) (t : State)
    (ht : decodeTick op checked lim signed r
        { acc := groupsPlaced (s.bytesFrom r.cursor) k, i := k, rem := r.value } (s.afterGroups op r rest k) = t)
    (hs : t.status = .idle ∨ ∃ f, t.status = .faulted f) :
    runBusy (decodeTick op checked lim signed) Config.maxBytes (s.accept op r rest) = t := by
  have h := runBusy_decodeTick_reaches op checked lim signed r rest s (4 - k + 1) k hk hreach hc
  rw [show 4 - k + 1 + k = Config.maxBytes by unfold Config.maxBytes; omega] at h
  rw [h, runBusy_busy _ _ _ op r _ rfl, ht]
  rcases hs with hs | ⟨f, hs⟩
  · exact runBusy_idle _ _ _ hs
  · exact runBusy_faulted _ _ _ f hs

/-- The bytes before the last of a sequence continue. -/
theorem continues_before (k : Nat) (hk : k < seqLength (s.bytesFrom r.cursor)) :
    ∀ j, j < k → continues (s.bytesFrom r.cursor j) = true :=
  fun j hj => continues_of_lt_seqLength _ j (by omega)

/-- END 1. The limit stops the decode before byte `k` of the sequence (R102): `k` bytes are read, `OK = 0`. -/
theorem decodeRun_pastLimit (k : Nat) (hk : k < seqLength (s.bytesFrom r.cursor))
    (hreach : ReachesByte checked lim r s k) (hl : pastLimit checked lim r (r.cursor + k) = true) :
    runBusy (decodeTick op checked lim signed) Config.maxBytes (s.accept op r rest) =
      State.invalid (decodeResponse checked signed false)
        { s with status := .idle, response := none, trace := readsFrom r.cursor k, moves := rest } := by
  have h5 := seqLength_le (s.bytesFrom r.cursor)
  refine runBusy_decodeTick_last op checked lim signed r rest s k (by omega) hreach
    (continues_before r s k hk) _ ?_ (.inl rfl)
  simp only [decodeTick, hl, if_true]
  rfl

/-- END 2. Byte `k` of the sequence is not readable (R45): `k` bytes are read, `MemReadFault`. -/
theorem decodeRun_unreadable (k : Nat) (hk : k < seqLength (s.bytesFrom r.cursor))
    (hreach : ReachesByte checked lim r s k) (hl : pastLimit checked lim r (r.cursor + k) = false)
    (hr : s.canRead (r.cursor + k) = false) :
    runBusy (decodeTick op checked lim signed) Config.maxBytes (s.accept op r rest) =
      s.stopped rest (readsFrom r.cursor k) (.memReadFault r.cmd (r.cursor + k)) := by
  have h5 := seqLength_le (s.bytesFrom r.cursor)
  refine runBusy_decodeTick_last op checked lim signed r rest s k (by omega) hreach
    (continues_before r s k hk) _ ?_ (.inr ⟨_, rfl⟩)
  have hread : (s.afterGroups op r rest k).memRead (r.cursor + k) = none := State.memRead_refused _ _ hr
  simp only [decodeTick, hl, hread, Bool.false_eq_true, if_false]
  rfl

/-- The iteration that reads the last byte of a sequence that ends well (R80). -/
theorem decodeTick_ends (hreach : ReachesByte checked lim r s (seqLength (s.bytesFrom r.cursor)))
    (hok : seqLength (s.bytesFrom r.cursor) = 5 → badFinalByte checked (s.bytesFrom r.cursor 4) = false) :
    runBusy (decodeTick op checked lim signed) Config.maxBytes (s.accept op r rest) =
      State.finish r (seqLength (s.bytesFrom r.cursor))
        (decodeResponse checked signed true
          (placed signed (s.bytesFrom r.cursor) (seqLength (s.bytesFrom r.cursor))))
        { s with
          status := .busy op r
            { acc := groupsPlaced (s.bytesFrom r.cursor) (seqLength (s.bytesFrom r.cursor) - 1)
              i := seqLength (s.bytesFrom r.cursor) - 1
              rem := r.value }
          response := none
          trace := readsFrom r.cursor (seqLength (s.bytesFrom r.cursor))
          moves := rest } := by
  have h5 := seqLength_le (s.bytesFrom r.cursor)
  have h1 := seqLength_pos (s.bytesFrom r.cursor)
  have hv := decodeValue_accumulated signed (s.bytesFrom r.cursor)
  have hcb := continues_before r s
  have hlast := not_continues_last (s.bytesFrom r.cursor)
  generalize hn : seqLength (s.bytesFrom r.cursor) = n at *
  obtain ⟨k, rfl⟩ : ∃ k, n = k + 1 := ⟨n - 1, by omega⟩
  have hk := hreach k (by omega)
  refine runBusy_decodeTick_last op checked lim signed r rest s k (by omega)
    (fun j hj => hreach j (by omega)) (hcb k (by omega)) _ ?_ ?_
  · have hread : (s.afterGroups op r rest k).memRead (r.cursor + k) =
        some (s.bytesFrom r.cursor k,
          { s.afterGroups op r rest k with trace := readsFrom r.cursor k ++ [Access.read (r.cursor + k)] }) :=
      State.memRead_admitted _ _ hk.2
    rw [← hv]
    by_cases h4 : k < 4
    · simp only [decodeTick, hk.1, hread, groupStep, h4, hlast k rfl h4, if_true, Bool.false_eq_true, if_false]
      simp only [State.afterGroups, readsFrom_succ, accumulated, show ¬ k + 1 = 5 by omega, if_false, groupsPlaced,
        Nat.add_sub_cancel]
    · obtain rfl : k = 4 := by omega
      simp only [decodeTick, hk.1, hread, groupStep, h4, hok rfl, Bool.false_eq_true, if_false]
      simp only [State.afterGroups, readsFrom_succ, accumulated, if_true]
  · unfold State.finish
    split
    · exact .inr ⟨_, rfl⟩
    · exact .inl rfl

/-- END 3. The sequence ends well and the advanced cursor is representable: the response (R82, R104). -/
theorem decodeRun_responds (hreach : ReachesByte checked lim r s (seqLength (s.bytesFrom r.cursor)))
    (hok : seqLength (s.bytesFrom r.cursor) = 5 → badFinalByte checked (s.bytesFrom r.cursor 4) = false)
    (hfit : r.cursor + seqLength (s.bytesFrom r.cursor) < 2 ^ s.launch.addrWidth) :
    runBusy (decodeTick op checked lim signed) Config.maxBytes (s.accept op r rest) =
      s.responded rest (readsFrom r.cursor (seqLength (s.bytesFrom r.cursor)))
        (decodeResponse checked signed true
          (placed signed (s.bytesFrom r.cursor) (seqLength (s.bytesFrom r.cursor)))
          (r.cursor + seqLength (s.bytesFrom r.cursor))) := by
  rw [decodeTick_ends op checked lim signed r rest s hreach hok]
  exact State.finish_fits _ r _ _ hfit

/-- END 4. The sequence ends well at the last byte of the address space: `CursorOverflow` (R144). -/
theorem decodeRun_overflows (hreach : ReachesByte checked lim r s (seqLength (s.bytesFrom r.cursor)))
    (hok : seqLength (s.bytesFrom r.cursor) = 5 → badFinalByte checked (s.bytesFrom r.cursor 4) = false)
    (hfit : 2 ^ s.launch.addrWidth ≤ r.cursor + seqLength (s.bytesFrom r.cursor)) :
    runBusy (decodeTick op checked lim signed) Config.maxBytes (s.accept op r rest) =
      s.stopped rest (readsFrom r.cursor (seqLength (s.bytesFrom r.cursor)))
        (.cursorOverflow r.cmd (r.cursor + seqLength (s.bytesFrom r.cursor))) := by
  rw [decodeTick_ends op checked lim signed r rest s hreach hok]
  exact State.finish_overflows _ r _ _ hfit

/-- END 5. The fifth byte of a checked decode has a high nibble (R103): five bytes are read, `OK = 0`. -/
theorem decodeRun_badFinalByte (hn : seqLength (s.bytesFrom r.cursor) = 5)
    (hreach : ReachesByte checked lim r s 5)
    (hbad : badFinalByte checked (s.bytesFrom r.cursor 4) = true) :
    runBusy (decodeTick op checked lim signed) Config.maxBytes (s.accept op r rest) =
      State.invalid (decodeResponse checked signed false)
        { s with status := .idle, response := none, trace := readsFrom r.cursor 5, moves := rest } := by
  have hk := hreach 4 (by omega)
  refine runBusy_decodeTick_last op checked lim signed r rest s 4 (by omega)
    (fun j hj => hreach j (by omega)) (continues_before r s 4 (by omega)) _ ?_ (.inl rfl)
  have hread : (s.afterGroups op r rest 4).memRead (r.cursor + 4) =
      some (s.bytesFrom r.cursor 4,
        { s.afterGroups op r rest 4 with trace := readsFrom r.cursor 4 ++ [Access.read (r.cursor + 4)] }) :=
    State.memRead_admitted _ _ hk.2
  simp only [decodeTick, hk.1, hread, groupStep, hbad, Nat.lt_irrefl, if_true, Bool.false_eq_true, if_false]
  simp only [← readsFrom_succ]
  rfl

/-- Every decode has one of the five ends. -/
theorem decodeRun_ends :
    (∃ k, k < seqLength (s.bytesFrom r.cursor) ∧ ReachesByte checked lim r s k ∧
        pastLimit checked lim r (r.cursor + k) = true) ∨
      (∃ k, k < seqLength (s.bytesFrom r.cursor) ∧ ReachesByte checked lim r s k ∧
        pastLimit checked lim r (r.cursor + k) = false ∧ s.canRead (r.cursor + k) = false) ∨
      (ReachesByte checked lim r s (seqLength (s.bytesFrom r.cursor)) ∧
        (seqLength (s.bytesFrom r.cursor) = 5 → badFinalByte checked (s.bytesFrom r.cursor 4) = false)) ∨
      (seqLength (s.bytesFrom r.cursor) = 5 ∧ ReachesByte checked lim r s 5 ∧
        badFinalByte checked (s.bytesFrom r.cursor 4) = true) := by
  have walk : ∀ n, n ≤ seqLength (s.bytesFrom r.cursor) → ReachesByte checked lim r s n ∨
      ∃ k, k < n ∧ ReachesByte checked lim r s k ∧
        (pastLimit checked lim r (r.cursor + k) = true ∨
          pastLimit checked lim r (r.cursor + k) = false ∧ s.canRead (r.cursor + k) = false) := by
    intro n
    induction n with
    | zero => exact fun _ => .inl (fun j hj => absurd hj (Nat.not_lt_zero j))
    | succ n ih =>
      intro hn
      rcases ih (by omega) with h | ⟨k, hk, h⟩
      · cases hp : pastLimit checked lim r (r.cursor + n) with
        | true => exact .inr ⟨n, by omega, h, .inl hp⟩
        | false =>
          cases hr : s.canRead (r.cursor + n) with
          | false => exact .inr ⟨n, by omega, h, .inr ⟨hp, hr⟩⟩
          | true =>
            refine .inl fun j hj => ?_
            rcases Nat.lt_succ_iff_lt_or_eq.mp hj with hj | rfl
            · exact h j hj
            · exact ⟨hp, hr⟩
      · exact .inr ⟨k, by omega, h⟩
  rcases walk _ (Nat.le_refl _) with h | ⟨k, hk, h, hp | hp⟩
  · by_cases h5 : seqLength (s.bytesFrom r.cursor) = 5
    · cases hb : badFinalByte checked (s.bytesFrom r.cursor 4) with
      | false => exact .inr (.inr (.inl ⟨h, fun _ => rfl⟩))
      | true => exact .inr (.inr (.inr ⟨h5, h5 ▸ h, rfl⟩))
    · exact .inr (.inr (.inl ⟨h, fun h' => absurd h' h5⟩))
  · exact .inl ⟨k, hk, h, hp⟩
  · exact .inr (.inl ⟨k, hk, h, hp⟩)

/-- What a decode leaves: one of the five ends, with the condition each is reached on. -/
theorem decodeRun_cases :
    (∃ k, k < seqLength (s.bytesFrom r.cursor) ∧ ReachesByte checked lim r s k ∧
        pastLimit checked lim r (r.cursor + k) = true ∧
        runBusy (decodeTick op checked lim signed) Config.maxBytes (s.accept op r rest) =
          State.invalid (decodeResponse checked signed false)
            { s with status := .idle, response := none, trace := readsFrom r.cursor k, moves := rest }) ∨
      (∃ k, k < seqLength (s.bytesFrom r.cursor) ∧ ReachesByte checked lim r s k ∧
        pastLimit checked lim r (r.cursor + k) = false ∧ s.canRead (r.cursor + k) = false ∧
        runBusy (decodeTick op checked lim signed) Config.maxBytes (s.accept op r rest) =
          s.stopped rest (readsFrom r.cursor k) (.memReadFault r.cmd (r.cursor + k))) ∨
      (ReachesByte checked lim r s (seqLength (s.bytesFrom r.cursor)) ∧
        (seqLength (s.bytesFrom r.cursor) = 5 → badFinalByte checked (s.bytesFrom r.cursor 4) = false) ∧
        r.cursor + seqLength (s.bytesFrom r.cursor) < 2 ^ s.launch.addrWidth ∧
        runBusy (decodeTick op checked lim signed) Config.maxBytes (s.accept op r rest) =
          s.responded rest (readsFrom r.cursor (seqLength (s.bytesFrom r.cursor)))
            (decodeResponse checked signed true
              (placed signed (s.bytesFrom r.cursor) (seqLength (s.bytesFrom r.cursor)))
              (r.cursor + seqLength (s.bytesFrom r.cursor)))) ∨
      (ReachesByte checked lim r s (seqLength (s.bytesFrom r.cursor)) ∧
        (seqLength (s.bytesFrom r.cursor) = 5 → badFinalByte checked (s.bytesFrom r.cursor 4) = false) ∧
        2 ^ s.launch.addrWidth ≤ r.cursor + seqLength (s.bytesFrom r.cursor) ∧
        runBusy (decodeTick op checked lim signed) Config.maxBytes (s.accept op r rest) =
          s.stopped rest (readsFrom r.cursor (seqLength (s.bytesFrom r.cursor)))
            (.cursorOverflow r.cmd (r.cursor + seqLength (s.bytesFrom r.cursor)))) ∨
      (seqLength (s.bytesFrom r.cursor) = 5 ∧ ReachesByte checked lim r s 5 ∧
        badFinalByte checked (s.bytesFrom r.cursor 4) = true ∧
        runBusy (decodeTick op checked lim signed) Config.maxBytes (s.accept op r rest) =
          State.invalid (decodeResponse checked signed false)
            { s with status := .idle, response := none, trace := readsFrom r.cursor 5, moves := rest }) := by
  rcases decodeRun_ends checked lim r s with ⟨k, hk, hreach, hl⟩ | ⟨k, hk, hreach, hl, hr⟩ | ⟨hreach, hok⟩ |
    ⟨hn, hreach, hbad⟩
  · exact .inl ⟨k, hk, hreach, hl, decodeRun_pastLimit op checked lim signed r rest s k hk hreach hl⟩
  · exact .inr (.inl ⟨k, hk, hreach, hl, hr, decodeRun_unreadable op checked lim signed r rest s k hk hreach hl hr⟩)
  · rcases Nat.lt_or_ge (r.cursor + seqLength (s.bytesFrom r.cursor)) (2 ^ s.launch.addrWidth) with hf | hf
    · exact .inr (.inr (.inl ⟨hreach, hok, hf, decodeRun_responds op checked lim signed r rest s hreach hok hf⟩))
    · exact .inr (.inr (.inr (.inl
        ⟨hreach, hok, hf, decodeRun_overflows op checked lim signed r rest s hreach hok hf⟩)))
  · exact .inr (.inr (.inr (.inr
      ⟨hn, hreach, hbad, decodeRun_badFinalByte op checked lim signed r rest s hn hreach hbad⟩)))

end

/-! ### The checks, for each kind of decode -/

theorem pastLimit_unchecked (lim : Bool) (r : Request) (a : Nat) : pastLimit false lim r a = false := rfl

theorem pastLimit_unlimited (checked : Bool) (r : Request) (a : Nat) : pastLimit checked false r a = false := by
  simp [pastLimit]

theorem pastLimit_limited (r : Request) (a : Nat) : pastLimit true true r a = decide (r.limit ≤ a) := by
  simp [pastLimit]

theorem badFinalByte_unchecked (b : Byte) : badFinalByte false b = false := rfl

theorem badFinalByte_checked (b : Byte) : badFinalByte true b = decide (highNibble b ≠ 0#4) := by
  simp [badFinalByte]

theorem reachesByte_unchecked (lim : Bool) (r : Request) (s : State) (k : Nat) :
    ReachesByte false lim r s k ↔ s.ReadableRun r.cursor k := by
  simp [ReachesByte, State.ReadableRun, pastLimit]

theorem reachesByte_checked (lim : Bool) (r : Request) (s : State) (k : Nat) :
    ReachesByte true lim r s k ↔
      s.ReadableRun r.cursor k ∧ (lim = true → ∀ j, j < k → r.cursor + j < r.limit) := by
  cases lim <;> simp [ReachesByte, State.ReadableRun, pastLimit, forall_and, and_comm]

end Sys2Proof.Machine
end

