-- ==== Sys2Proof/Laws/EncodeOps.lean ====
section
/-!
SUPPORT. The loops of ENCU (R120) and SIZEU (R121), run from the acceptance of the request to each of the ends they can
have, in the terms of Sys2Proof/Safety.lean.
-/

namespace Sys2Proof.Machine

/-! ### The size and the bytes of the canonical form -/

theorem sizeByRange_pos (v : Word) : 1 ≤ sizeByRange v := by
  unfold sizeByRange; repeat' split
  all_goals omega

theorem sizeByRange_le (v : Word) : sizeByRange v ≤ 5 := by
  unfold sizeByRange; repeat' split
  all_goals omega

/-- `v >> (7 * k)` as a number. -/
theorem toNat_shifted (v : Word) (k : Nat) : (v >>> (7 * k)).toNat = v.toNat / 2 ^ (7 * k) := by
  rw [BitVec.toNat_ushiftRight, Nat.shiftRight_eq_div_pow]

/-- What is left after `k + 1` groups is zero exactly from the size on (R121 against R122). -/
theorem shifted_eq_zero_iff (v : Word) (k : Nat) (hk : k ≤ 4) :
    v >>> (7 * k) >>> 7 = 0#32 ↔ sizeByRange v ≤ k + 1 := by
  have h32 := v.isLt
  rw [← BitVec.toNat_inj, BitVec.toNat_ushiftRight, Nat.shiftRight_eq_div_pow, toNat_shifted, Nat.div_div_eq_div_mul,
    ← Nat.pow_add]
  simp only [BitVec.toNat_ofNat, Nat.zero_mod, Nat.div_eq_zero_iff]
  unfold sizeByRange
  obtain rfl | rfl | rfl | rfl | rfl : k = 0 ∨ k = 1 ∨ k = 2 ∨ k = 3 ∨ k = 4 := by omega
  all_goals
    repeat' split
    all_goals omega

theorem fitsGroup_shifted (v : Word) (k : Nat) (hk : k ≤ 4) :
    fitsGroup (v >>> (7 * k)) = decide (sizeByRange v ≤ k + 1) := by
  simp only [fitsGroup, shifted_eq_zero_iff v k hk]

theorem shifted_succ (v : Word) (k : Nat) : v >>> (7 * k) >>> 7 = v >>> (7 * (k + 1)) := by
  rw [← BitVec.shiftRight_add, Nat.mul_add]

/-- The byte ENCU writes with the continuation bit set is the canonical form's. -/
theorem moreByte_shifted (v : Word) (k : Nat) (hk : k + 1 < sizeByRange v) :
    moreByte (v >>> (7 * k)) = canonicalByte v k := by
  apply BitVec.eq_of_getLsbD_eq
  intro i hi
  simp only [moreByte, canonicalByte, hk, decide_true, BitVec.getLsbD_or, BitVec.getLsbD_setWidth, hi, Bool.true_and,
    BitVec.getLsbD_extractLsb', BitVec.getLsbD_append, BitVec.getLsbD_ushiftRight]
  obtain rfl | rfl | rfl | rfl | rfl | rfl | rfl | rfl :
      i = 0 ∨ i = 1 ∨ i = 2 ∨ i = 3 ∨ i = 4 ∨ i = 5 ∨ i = 6 ∨ i = 7 := by omega
  all_goals simp

/-- The last byte ENCU writes is the canonical form's. -/
theorem lastByte_shifted (v : Word) (k : Nat) (hk : sizeByRange v = k + 1) :
    lastByte (v >>> (7 * k)) = canonicalByte v k := by
  have h5 := sizeByRange_le v
  have hz := (shifted_eq_zero_iff v k (by omega)).mpr (by omega)
  have hbit : v.getLsbD (7 * k + 7) = false := by
    have := congrArg (fun w : Word => w.getLsbD 0) hz
    simpa [BitVec.getLsbD_ushiftRight, Nat.add_comm, Nat.add_left_comm] using this
  apply BitVec.eq_of_getLsbD_eq
  intro i hi
  simp only [lastByte, canonicalByte, hk, Nat.lt_irrefl, decide_false, hi, decide_true, Bool.true_and,
    BitVec.getLsbD_extractLsb', BitVec.getLsbD_append, BitVec.getLsbD_ushiftRight]
  obtain rfl | rfl | rfl | rfl | rfl | rfl | rfl | rfl :
      i = 0 ∨ i = 1 ∨ i = 2 ∨ i = 3 ∨ i = 4 ∨ i = 5 ∨ i = 6 ∨ i = 7 := by omega
  all_goals simp [hbit]

/-! ### ENCU -/

theorem writesFrom_succ (c : Nat) (f : Nat → Byte) (n : Nat) :
    writesFrom c f (n + 1) = writesFrom c f n ++ [Access.write (c + n) (f n)] := by
  simp [writesFrom, List.range_succ]

/-- The state of an ENCU that has written `k` bytes and goes on. -/
def State.afterWrites (s : State) (r : Request) (rest : List HostMove) (k : Nat) : State :=
  { s with
    mem := Memory.writeRun s.mem r.cursor (canonicalByte r.value) k
    status := .busy .encu r { acc := 0#32, i := k, rem := r.value >>> (7 * k) }
    response := none
    trace := writesFrom r.cursor (canonicalByte r.value) k
    moves := rest }

section
variable (r : Request) (rest : List HostMove) (s : State)

theorem State.afterWrites_zero : s.afterWrites r rest 0 = s.accept .encu r rest := by
  simp [State.afterWrites, State.accept, Transient.init, Memory.writeRun, writesFrom]

/-- The write of byte `k`, admitted. -/
theorem State.afterWrites_memWrite (k : Nat) (b : Byte) (hb : b = canonicalByte r.value k)
    (hw : s.canWrite (r.cursor + k) = true) :
    (s.afterWrites r rest k).memWrite (r.cursor + k) b =
      some { s.afterWrites r rest k with
        mem := Memory.writeRun s.mem r.cursor (canonicalByte r.value) (k + 1)
        trace := writesFrom r.cursor (canonicalByte r.value) (k + 1) } := by
  subst hb
  have h := State.memWrite_admitted (s.afterWrites r rest k) (r.cursor + k) (canonicalByte r.value k) hw
  rw [h, writesFrom_succ]
  rfl

/-- One iteration that goes on (R120). -/
theorem encuTick_more (k : Nat) (hk : k + 1 < sizeByRange r.value) (hw : s.canWrite (r.cursor + k) = true) :
    encuTick r { acc := 0#32, i := k, rem := r.value >>> (7 * k) } (s.afterWrites r rest k) =
      s.afterWrites r rest (k + 1) := by
  have h5 := sizeByRange_le r.value
  have hfit := fitsGroup_shifted r.value k (by omega)
  rw [decide_eq_false (by omega)] at hfit
  have hmem := s.afterWrites_memWrite r rest k _ (moreByte_shifted r.value k hk) hw
  simp only [encuTick, hfit, hmem, Bool.false_eq_true, if_false, shifted_succ]
  rfl

/-- An ENCU whose first `k` bytes are writable has written them. -/
theorem runBusy_encuTick_reaches (m k : Nat) (hk : k < sizeByRange r.value) (hw : s.WritableRun r.cursor k) :
    runBusy encuTick (m + k) (s.accept .encu r rest) = runBusy encuTick m (s.afterWrites r rest k) := by
  induction k generalizing m with
  | zero => rw [State.afterWrites_zero]; rfl
  | succ k ih =>
    have h := ih (m + 1) (by omega) (fun j hj => hw j (by omega))
    rw [show m + (k + 1) = m + 1 + k by omega, h, runBusy_busy _ _ _ .encu r _ rfl]
    congr 1
    exact encuTick_more r rest s k hk (hw k (by omega))

/-- The run of an ENCU is one iteration from the byte that ends it. -/
theorem runBusy_encuTick_last (k : Nat) (hk : k < sizeByRange r.value) (hw : s.WritableRun r.cursor k) (t : State)
    (ht : encuTick r { acc := 0#32, i := k, rem := r.value >>> (7 * k) } (s.afterWrites r rest k) = t)
    (hs : t.status = .idle ∨ ∃ f, t.status = .faulted f) :
    runBusy encuTick Config.maxBytes (s.accept .encu r rest) = t := by
  have h5 := sizeByRange_le r.value
  have h := runBusy_encuTick_reaches r rest s (4 - k + 1) k hk hw
  rw [show 4 - k + 1 + k = Config.maxBytes by unfold Config.maxBytes; omega] at h
  rw [h, runBusy_busy _ _ _ .encu r _ rfl, ht]
  rcases hs with hs | ⟨f, hs⟩
  · exact runBusy_idle _ _ _ hs
  · exact runBusy_faulted _ _ _ f hs

/-- END 1. Byte `k` is not writable: the bytes before it stay written, `MemWriteFault` (R46). -/
theorem encuRun_unwritable (k : Nat) (hk : k < sizeByRange r.value) (hw : s.WritableRun r.cursor k)
    (hno : s.canWrite (r.cursor + k) = false) :
    runBusy encuTick Config.maxBytes (s.accept .encu r rest) =
      (s.stored r.cursor (canonicalByte r.value) k).stopped rest (writesFrom r.cursor (canonicalByte r.value) k)
        (.memWriteFault r.cmd (r.cursor + k)) := by
  refine runBusy_encuTick_last r rest s k hk hw _ ?_ (.inr ⟨_, rfl⟩)
  have hmem : ∀ b, (s.afterWrites r rest k).memWrite (r.cursor + k) b = none :=
    fun b => State.memWrite_refused _ _ b hno
  simp only [encuTick, hmem, ite_self]
  rfl

/-- The iteration that writes the last byte (R120). -/
theorem encuRun_ends (hw : s.WritableRun r.cursor (sizeByRange r.value)) :
    runBusy encuTick Config.maxBytes (s.accept .encu r rest) =
      State.finish r (sizeByRange r.value) .encu
        { s.afterWrites r rest (sizeByRange r.value - 1) with
          mem := Memory.writeRun s.mem r.cursor (canonicalByte r.value) (sizeByRange r.value)
          trace := writesFrom r.cursor (canonicalByte r.value) (sizeByRange r.value) } := by
  have h1 := sizeByRange_pos r.value
  have h5 := sizeByRange_le r.value
  obtain ⟨k, hk⟩ : ∃ k, sizeByRange r.value = k + 1 := ⟨sizeByRange r.value - 1, by omega⟩
  have hfit := fitsGroup_shifted r.value k (by omega)
  rw [decide_eq_true (by omega)] at hfit
  have hmem := s.afterWrites_memWrite r rest k _ (lastByte_shifted r.value k hk) (hw k (by omega))
  refine runBusy_encuTick_last r rest s k (by omega) (fun j hj => hw j (by omega)) _ ?_ ?_
  · simp only [encuTick, hfit, hmem, if_true, hk, Nat.add_sub_cancel]
  · unfold State.finish
    split
    · exact .inr ⟨_, rfl⟩
    · exact .inl rfl

/-- END 2. Every byte is written and the advanced cursor is representable: the response (R120). -/
theorem encuRun_responds (hw : s.WritableRun r.cursor (sizeByRange r.value))
    (hfit : r.cursor + sizeByRange r.value < 2 ^ s.launch.addrWidth) :
    runBusy encuTick Config.maxBytes (s.accept .encu r rest) =
      (s.stored r.cursor (canonicalByte r.value) (sizeByRange r.value)).responded rest
        (writesFrom r.cursor (canonicalByte r.value) (sizeByRange r.value))
        (.encu (r.cursor + sizeByRange r.value)) := by
  rw [encuRun_ends r rest s hw]
  exact State.finish_fits _ r _ _ hfit

/-- END 3. The last byte of the address space is written: `CursorOverflow` (R144). -/
theorem encuRun_overflows (hw : s.WritableRun r.cursor (sizeByRange r.value))
    (hfit : 2 ^ s.launch.addrWidth ≤ r.cursor + sizeByRange r.value) :
    runBusy encuTick Config.maxBytes (s.accept .encu r rest) =
      (s.stored r.cursor (canonicalByte r.value) (sizeByRange r.value)).stopped rest
        (writesFrom r.cursor (canonicalByte r.value) (sizeByRange r.value))
        (.cursorOverflow r.cmd (r.cursor + sizeByRange r.value)) := by
  rw [encuRun_ends r rest s hw]
  exact State.finish_overflows _ r _ _ hfit

/-- Every ENCU has one of these ends: a first unwritable byte, or none. -/
theorem encuRun_cases (n : Nat) : s.WritableRun r.cursor n ∨
    ∃ k, k < n ∧ s.WritableRun r.cursor k ∧ s.canWrite (r.cursor + k) = false := by
  induction n with
  | zero => exact .inl fun k hk => absurd hk (Nat.not_lt_zero k)
  | succ n ih =>
    rcases ih with h | ⟨k, hk, h⟩
    · cases hw : s.canWrite (r.cursor + n) with
      | false => exact .inr ⟨n, by omega, h, hw⟩
      | true =>
        refine .inl fun j hj => ?_
        rcases Nat.lt_succ_iff_lt_or_eq.mp hj with hj | rfl
        · exact h j hj
        · exact hw
    · exact .inr ⟨k, by omega, h⟩

/-- What an ENCU leaves: one of the three ends, with the condition each is reached on. -/
theorem encuRun_result :
    (∃ k, k < sizeByRange r.value ∧ s.WritableRun r.cursor k ∧ s.canWrite (r.cursor + k) = false ∧
        runBusy encuTick Config.maxBytes (s.accept .encu r rest) =
          (s.stored r.cursor (canonicalByte r.value) k).stopped rest (writesFrom r.cursor (canonicalByte r.value) k)
            (.memWriteFault r.cmd (r.cursor + k))) ∨
      (s.WritableRun r.cursor (sizeByRange r.value) ∧ r.cursor + sizeByRange r.value < 2 ^ s.launch.addrWidth ∧
        runBusy encuTick Config.maxBytes (s.accept .encu r rest) =
          (s.stored r.cursor (canonicalByte r.value) (sizeByRange r.value)).responded rest
            (writesFrom r.cursor (canonicalByte r.value) (sizeByRange r.value))
            (.encu (r.cursor + sizeByRange r.value))) ∨
      (s.WritableRun r.cursor (sizeByRange r.value) ∧ 2 ^ s.launch.addrWidth ≤ r.cursor + sizeByRange r.value ∧
        runBusy encuTick Config.maxBytes (s.accept .encu r rest) =
          (s.stored r.cursor (canonicalByte r.value) (sizeByRange r.value)).stopped rest
            (writesFrom r.cursor (canonicalByte r.value) (sizeByRange r.value))
            (.cursorOverflow r.cmd (r.cursor + sizeByRange r.value))) := by
  rcases encuRun_cases r s (sizeByRange r.value) with hw | ⟨k, hk, hw, hno⟩
  · rcases Nat.lt_or_ge (r.cursor + sizeByRange r.value) (2 ^ s.launch.addrWidth) with hf | hf
    · exact .inr (.inl ⟨hw, hf, encuRun_responds r rest s hw hf⟩)
    · exact .inr (.inr ⟨hw, hf, encuRun_overflows r rest s hw hf⟩)
  · exact .inl ⟨k, hk, hw, hno, encuRun_unwritable r rest s k hk hw hno⟩

/-! ### SIZEU -/

/-- The state of a SIZEU that has made `k` shifts and goes on. -/
def State.afterShifts (k : Nat) : State :=
  { s with
    status := .busy .sizeu r { acc := 0#32, i := k, rem := r.value >>> (7 * k) }
    response := none
    trace := []
    moves := rest }

theorem State.afterShifts_zero : State.afterShifts r rest s 0 = s.accept .sizeu r rest := by
  simp [State.afterShifts, State.accept, Transient.init]

theorem runBusy_sizeuTick_reaches (m k : Nat) (hk : k < sizeByRange r.value) :
    runBusy sizeuTick (m + k) (s.accept .sizeu r rest) = runBusy sizeuTick m (State.afterShifts r rest s k) := by
  induction k generalizing m with
  | zero => rw [State.afterShifts_zero]; rfl
  | succ k ih =>
    have h5 := sizeByRange_le r.value
    have h := ih (m + 1) (by omega)
    have hz : ¬ r.value >>> (7 * (k + 1)) = 0#32 := by
      rw [← shifted_succ, shifted_eq_zero_iff r.value k (by omega)]
      omega
    rw [show m + (k + 1) = m + 1 + k by omega, h, runBusy_busy _ _ _ .sizeu r _ rfl]
    congr 1
    simp only [sizeuTick, shifted_succ, hz, if_false]
    rfl

/-- The one end of a SIZEU: the count of R122's table, no access (R121). -/
theorem sizeuRun_responds :
    runBusy sizeuTick Config.maxBytes (s.accept .sizeu r rest) =
      s.responded rest [] (.sizeu (BitVec.ofNat 3 (sizeByRange r.value))) := by
  have h1 := sizeByRange_pos r.value
  have h5 := sizeByRange_le r.value
  obtain ⟨k, hk⟩ : ∃ k, sizeByRange r.value = k + 1 := ⟨sizeByRange r.value - 1, by omega⟩
  have h := runBusy_sizeuTick_reaches r rest s (4 - k + 1) k (by omega)
  have hz := (shifted_eq_zero_iff r.value k (by omega)).mpr (by omega)
  rw [show 4 - k + 1 + k = Config.maxBytes by unfold Config.maxBytes; omega] at h
  rw [h, runBusy_busy _ _ _ .sizeu r _ rfl]
  simp only [sizeuTick, hz, if_true, hk]
  exact runBusy_idle _ _ _ rfl

end

end Sys2Proof.Machine
end

