-- ==== Sys2Proof/Laws/Memory.lean ====
section
/-!
SUPPORT. The laws of memory: what a write does to a read, and that every memory operation keeps the canonical form.
-/

namespace Sys2Proof.Machine

/-- Below a canonical list's lowest address nothing is listed. -/
theorem Memory.read_below (m : List Host.Cell) (low a : Nat) (h : Memory.risingFrom low m = true) (ha : a < low) :
    Memory.read m a = Memory.blank := by
  induction m generalizing low with
  | nil => rfl
  | cons c rest ih =>
    obtain ⟨k, v⟩ := c
    simp only [Memory.risingFrom, Bool.and_eq_true, decide_eq_true_eq] at h
    rw [Memory.read, if_neg (by omega)]
    exact ih (k + 1) h.2 (by omega)

theorem Memory.risingFrom_mono (m : List Host.Cell) (low low' : Nat) (hl : low' ≤ low)
    (h : Memory.risingFrom low m = true) : Memory.risingFrom low' m = true := by
  cases m with
  | nil => rfl
  | cons c rest =>
    simp only [Memory.risingFrom, Bool.and_eq_true, decide_eq_true_eq] at h ⊢
    exact ⟨⟨by omega, h.1.2⟩, h.2⟩

theorem Memory.read_cell_other (a x : Nat) (b : Byte) (m : List Host.Cell) (hx : x ≠ a) :
    Memory.read (Memory.cell a b m) x = Memory.read m x := by
  unfold Memory.cell
  split
  · rfl
  · rw [Memory.read, if_neg (fun h => hx h.symm)]

theorem Memory.read_cell_same (a : Nat) (b : Byte) (m : List Host.Cell) (h : Memory.risingFrom (a + 1) m = true) :
    Memory.read (Memory.cell a b m) a = b := by
  unfold Memory.cell
  split
  · rename_i hb
    rw [Memory.read_below m (a + 1) a h (by omega), hb]
  · rw [Memory.read, if_pos rfl]

theorem Memory.risingFrom_cell (a low : Nat) (b : Byte) (m : List Host.Cell) (hl : low ≤ a)
    (h : Memory.risingFrom (a + 1) m = true) : Memory.risingFrom low (Memory.cell a b m) = true := by
  unfold Memory.cell
  split
  · exact Memory.risingFrom_mono m (a + 1) low (by omega) h
  · simp_all [Memory.risingFrom]

/-- A write leaves every other address alone. -/
theorem Memory.read_write_other (m : List Host.Cell) (a x : Nat) (b : Byte) (hx : x ≠ a) :
    Memory.read (Memory.write m a b) x = Memory.read m x := by
  induction m with
  | nil => exact Memory.read_cell_other a x b [] hx
  | cons c rest ih =>
    obtain ⟨k, v⟩ := c
    rw [Memory.write]
    split
    · exact Memory.read_cell_other a x b _ hx
    · split
      · rw [Memory.read_cell_other a x b _ hx, Memory.read, if_neg (by omega)]
      · rw [Memory.read, Memory.read, ih]

theorem Memory.read_write_same_from (m : List Host.Cell) (low a : Nat) (b : Byte)
    (h : Memory.risingFrom low m = true) : Memory.read (Memory.write m a b) a = b := by
  induction m generalizing low with
  | nil => exact Memory.read_cell_same a b [] rfl
  | cons c rest ih =>
    obtain ⟨k, v⟩ := c
    have hk := h
    simp only [Memory.risingFrom, Bool.and_eq_true, decide_eq_true_eq] at hk
    rw [Memory.write]
    split
    · refine Memory.read_cell_same a b _ ?_
      simp only [Memory.risingFrom, Bool.and_eq_true, decide_eq_true_eq]
      exact ⟨⟨by omega, hk.1.2⟩, hk.2⟩
    · split
      · rename_i hak
        exact Memory.read_cell_same a b _ (hak ▸ hk.2)
      · rw [Memory.read, if_neg (by omega)]
        exact ih (k + 1) hk.2

/-- A read after a write to the same address gives the byte written. -/
theorem Memory.read_write_same (m : List Host.Cell) (a : Nat) (b : Byte) (h : Memory.wf m = true) :
    Memory.read (Memory.write m a b) a = b :=
  Memory.read_write_same_from m 0 a b h

theorem Memory.write_rising (m : List Host.Cell) (low a : Nat) (b : Byte) (hl : low ≤ a)
    (h : Memory.risingFrom low m = true) : Memory.risingFrom low (Memory.write m a b) = true := by
  induction m generalizing low with
  | nil => exact Memory.risingFrom_cell a low b [] hl rfl
  | cons c rest ih =>
    obtain ⟨k, v⟩ := c
    have hk := h
    simp only [Memory.risingFrom, Bool.and_eq_true, decide_eq_true_eq] at hk
    rw [Memory.write]
    split
    · refine Memory.risingFrom_cell a low b _ hl ?_
      simp only [Memory.risingFrom, Bool.and_eq_true, decide_eq_true_eq]
      exact ⟨⟨by omega, hk.1.2⟩, hk.2⟩
    · split
      · rename_i hak
        exact Memory.risingFrom_cell a low b _ hl (hak ▸ hk.2)
      · simp only [Memory.risingFrom, Bool.and_eq_true, decide_eq_true_eq]
        exact ⟨hk.1, ih (k + 1) (by omega) hk.2⟩

/-- A write keeps the canonical form. -/
theorem Memory.write_wf (m : List Host.Cell) (a : Nat) (b : Byte) (h : Memory.wf m = true) :
    Memory.wf (Memory.write m a b) = true :=
  Memory.write_rising m 0 a b (Nat.zero_le a) h

/-- A run of writes keeps the canonical form. -/
theorem Memory.writeRun_wf (m : List Host.Cell) (c n : Nat) (f : Nat → Byte) (h : Memory.wf m = true) :
    Memory.wf (Memory.writeRun m c f n) = true := by
  induction n with
  | zero => exact h
  | succ n ih => exact Memory.write_wf _ _ _ ih

/-- A run of writes leaves every address outside it alone. -/
theorem Memory.read_writeRun_outside (m : List Host.Cell) (c n x : Nat) (f : Nat → Byte)
    (hx : x < c ∨ c + n ≤ x) : Memory.read (Memory.writeRun m c f n) x = Memory.read m x := by
  induction n with
  | zero => rfl
  | succ n ih =>
    rw [Memory.writeRun, Memory.read_write_other _ _ _ _ (by omega)]
    exact ih (by omega)

/-- A run of writes leaves its bytes at their addresses. -/
theorem Memory.read_writeRun_inside (m : List Host.Cell) (c n k : Nat) (f : Nat → Byte) (hm : Memory.wf m = true)
    (hk : k < n) : Memory.read (Memory.writeRun m c f n) (c + k) = f k := by
  induction n with
  | zero => omega
  | succ n ih =>
    rw [Memory.writeRun]
    rcases Nat.lt_succ_iff_lt_or_eq.mp hk with h | h
    · rw [Memory.read_write_other _ _ _ _ (by omega)]
      exact ih h
    · subst h
      exact Memory.read_write_same _ _ _ (Memory.writeRun_wf m c k f hm)

/-- A written list lists no address but those it listed and the one written. -/
theorem Memory.mem_write (m : List Host.Cell) (a : Nat) (b : Byte) (x : Host.Cell) (hx : x ∈ Memory.write m a b) :
    x ∈ m ∨ x = (a, b) := by
  induction m with
  | nil => simp only [Memory.write, Memory.cell] at hx; split at hx <;> simp_all
  | cons c rest ih =>
    obtain ⟨k, v⟩ := c
    simp only [Memory.write, Memory.cell] at hx
    split at hx
    · split at hx
      all_goals simp_all
      all_goals tauto
    · split at hx
      · split at hx
        all_goals simp_all
        all_goals tauto
      · simp only [List.mem_cons] at hx ⊢
        rcases hx with h | h
        · exact .inl (.inl h)
        · rcases ih h with h' | h'
          · exact .inl (.inr h')
          · exact .inr h'

end Sys2Proof.Machine
end

