-- ==== Sys2Proof/Laws/PerInstr.lean ====
section
/-!
SUPPORT. Statements made once per operation, about the operation as a term: the fields of its command byte.
-/

namespace Sys2Proof.Laws.CommandFields

/-- `OP` is one of the six operation codes, the reserved bits are zero, and `LIM` is set for no operation but a checked
decode (R60, R61). -/
def Statement (i : Instr) : Prop :=
  (cmdOp (encode i)).toNat ≤ 5 ∧ cmdReserved (encode i) = 0#4 ∧
    (cmdLim (encode i) = true → i = .decuc true ∨ i = .decsc true)

theorem decu : Statement .decu := by unfold Statement; decide

theorem decs : Statement .decs := by unfold Statement; decide

theorem decuc (lim : Bool) : Statement (.decuc lim) := by unfold Statement; cases lim <;> decide

theorem decsc (lim : Bool) : Statement (.decsc lim) := by unfold Statement; cases lim <;> decide

theorem encu : Statement .encu := by unfold Statement; decide

theorem sizeu : Statement .sizeu := by unfold Statement; decide

end Sys2Proof.Laws.CommandFields
end

