-- ==== Sys2Proof/Laws/Step.lean ====
section
/-!
SUPPORT. What a meaning and a step can do, once: `exec` on a presented request is the loop of its operation, the operations
fall into decodes, ENCU and SIZEU, and a step has one case per status and move.
-/

namespace Sys2Proof.Machine

/-- `exec` on a presented request runs the loop of the operation. -/
theorem exec_presented (i : Instr) (s : State) (r : Request) (rest : List HostMove) (h : s.Presents r rest) :
    exec i s = .next (runBusy (opTick i) Config.maxBytes (s.accept i r rest)) := by
  cases i <;> exact s.serve_presented r rest _ _ h

/-- Whether a decode is checked, whether it has a limit and whether it is signed. -/
def decodeForm : Instr → Bool × Bool × Bool
  | .decu => (false, false, false)
  | .decs => (false, false, true)
  | .decuc lim => (true, lim, false)
  | .decsc lim => (true, lim, true)
  | .encu => (false, false, false)
  | .sizeu => (false, false, false)

/-- The operations that read memory are the forms of the shared decode. -/
theorem opTick_decode (i : Instr) (h : readsMemory i = true) :
    opTick i = decodeTick i (decodeForm i).1 (decodeForm i).2.1 (decodeForm i).2.2 := by
  cases i <;> first | rfl | exact absurd h Bool.false_ne_true

/-- Every operation is a decode, ENCU or SIZEU. -/
theorem Instr_cases (i : Instr) : readsMemory i = true ∨ i = .encu ∨ i = .sizeu := by
  cases i <;> simp [readsMemory]

/-- `exec` where no request is presented answers no next state. -/
theorem exec_next_presents (i : Instr) (s t : State) (h : exec i s = .next t) : ∃ r rest, s.Presents r rest := by
  cases i
  all_goals
    obtain ⟨r, rest, hp, -⟩ := State.serve_next s t _ _ h
    exact ⟨r, rest, hp⟩

/-- A step of a `Busy` codec. -/
theorem step_busy (s : State) (op : Instr) (r : Request) (t : Transient) (h : s.status = .busy op r t) :
    step s = .next (s.goOn op) := by
  rw [step, State.advance, h]

/-- A step of an `Idle` codec at the host's next move. -/
theorem step_idle (s : State) (m : HostMove) (rest : List HostMove) (h : s.status = .idle) (hm : s.moves = m :: rest)
    (hw : m.wellFormed s.launch.addrWidth = true) : step s = s.moveIdle m rest := by
  rw [step, State.advance, h, hm]
  exact if_pos hw

/-- A step of a `Faulted` codec at the host's next move. -/
theorem step_faulted (s : State) (f : Fault) (m : HostMove) (rest : List HostMove) (h : s.status = .faulted f)
    (hm : s.moves = m :: rest) (hw : m.wellFormed s.launch.addrWidth = true) :
    step s = .next (s.moveFaulted m rest) := by
  rw [step, State.advance, h, hm]
  exact if_pos hw

/-- Every step that answers a next state is one of these. -/
theorem step_next (s t : State) (h : step s = .next t) :
    (∃ op r x, s.status = .busy op r x ∧ t = s.goOn op) ∨
      (s.status = .idle ∧ s.moves = [] ∧ t = s) ∨
      (∃ m rest, s.status = .idle ∧ s.moves = m :: rest ∧ m.wellFormed s.launch.addrWidth = true ∧
        s.moveIdle m rest = .next t) ∨
      ∃ f m rest, s.status = .faulted f ∧ s.moves = m :: rest ∧ m.wellFormed s.launch.addrWidth = true ∧
        t = s.moveFaulted m rest := by
  cases hs : s.status with
  | busy op r x =>
    rw [step_busy s op r x hs] at h
    cases h
    exact .inl ⟨op, r, x, rfl, rfl⟩
  | idle =>
    cases hm : s.moves with
    | nil =>
      rw [step, State.advance, hs, hm] at h
      cases h
      exact .inr (.inl ⟨rfl, rfl, rfl⟩)
    | cons m rest =>
      cases hw : m.wellFormed s.launch.addrWidth with
      | false => rw [step, State.advance, hs, hm] at h; simp [hw] at h
      | true =>
        rw [step_idle s m rest hs hm hw] at h
        exact .inr (.inr (.inl ⟨m, rest, rfl, rfl, hw, h⟩))
  | faulted f =>
    cases hm : s.moves with
    | nil => rw [step, State.advance, hs, hm] at h; cases h
    | cons m rest =>
      cases hw : m.wellFormed s.launch.addrWidth with
      | false => rw [step, State.advance, hs, hm] at h; simp [hw] at h
      | true =>
        rw [step_faulted s f m rest hs hm hw] at h
        cases h
        exact .inr (.inr (.inr ⟨f, m, rest, rfl, rfl, hw, rfl⟩))

end Sys2Proof.Machine
end

