-- ==== Sys2Proof/Tests/Slice0.lean ====
section
/-!
SUPPORT. Tests of the model on the spec's own vectors (95_test_vectors.md), the smoke test of WellFormed, the decoding of
command bytes written out from R60, and a witness for the hypotheses of every statement.
-/

namespace Sys2Proof.Tests

open Sys2Proof Sys2Proof.Machine

/-! ### Helpers -/

/-- The cells of a run of bytes from `c` on. -/
def cells (c : Nat) : List Byte → List Host.Cell
  | [] => []
  | b :: bs => Memory.cell c b (cells (c + 1) bs)

/-- The setting of 95_test_vectors.md: `ADDR_WIDTH = 16`, `Readable` exactly the bytes shown, `Writable` `0x1000..0x10FF`;
the host presents one request. -/
def vector (r : Request) (bs : List Byte) : State :=
  { State.reset with
    launch :=
      { addrWidth := 16
        readable := [{ base := r.cursor, size := bs.length }]
        writable := [{ base := 0x1000, size := 256 }] }
    mem := cells r.cursor bs
    moves := [.request r] }

/-- A request at `c = 0x1000`, `LIMIT = c + lim`. -/
def ask (cmd : Byte) (lim : Nat) (value : Word) : Request :=
  { cmd := cmd, cursor := 0x1000, limit := 0x1000 + lim, value := value }

/-- The codec after reset, presented a request; the whole address space is readable and writable. -/
def presented (r : Request) : State := { State.reset with moves := [.request r] }

def stateOf (o : Host.Outcome State Fault Refusal) : Option State :=
  match o with
  | .next t => some t
  | .fault _ => none
  | .refused _ => none

/-- The response of a step, and how many accesses it made. -/
def answer (s : State) : Option (Option Response × Nat) :=
  (stateOf (step s)).map fun t => (t.response, t.trace.length)

/-- The fault a step records, and how many accesses it made. -/
def faulted (s : State) : Option (Fault × Nat) :=
  (stateOf (step s)).bind fun t =>
    match t.status with
    | .faulted f => some (f, t.trace.length)
    | .idle => none
    | .busy _ _ _ => none

/-- `OK` of a checked decode, and how many bytes it read. -/
def okAndReads (s : State) : Option (Bool × Nat) :=
  (stateOf (step s)).bind fun t =>
    match t.response with
    | some (.decuc ok _ _) => some (ok, t.trace.length)
    | some (.decsc ok _ _) => some (ok, t.trace.length)
    | _ => none

/-- The bytes at `0x1000`, `0x1001`, … after a step. -/
def bytesAfter (s : State) (n : Nat) : Option (List Byte) :=
  (stateOf (step s)).map fun t => (List.range n).map fun k => t.byteAt (0x1000 + k)

/-! ### WellFormed refuses what no host can hand over -/

theorem test_wf_addr_width : Launch.wellFormed { addrWidth := 0, readable := [], writable := [] } = false := by decide

theorem test_wf_addr_width_one : Launch.wellFormed { addrWidth := 1, readable := [], writable := [] } = true := by decide

theorem test_wf_cursor :
    Request.wellFormed 16 { cmd := 0x00#8, cursor := 0x10000, limit := 0, value := 0#32 } = false := by decide

theorem test_wf_limit :
    Request.wellFormed 16 { cmd := 0x0A#8, cursor := 0, limit := 0x10000, value := 0#32 } = false := by decide

theorem test_wf_request :
    Request.wellFormed 16 { cmd := 0xFF#8, cursor := 0xFFFF, limit := 0xFFFF, value := 0#32 } = true := by decide

theorem test_wf_move_request : HostMove.wellFormed 16
    (.request { cmd := 0x00#8, cursor := 0x10000, limit := 0, value := 0#32 }) = false := by decide

theorem test_wf_move_write : HostMove.wellFormed 16 (.write 0x10000 0x01#8) = false := by decide

theorem test_wf_move_reset_during : HostMove.wellFormed 16
    (.resetDuring { cmd := 0x00#8, cursor := 0, limit := 0x10000, value := 0#32 }) = false := by decide

/-- A step on a malformed move is refused by name. -/
theorem test_malformed_refused :
    step { State.reset with moves := [.write 0x10000 0x01#8] } = .refused .malformedMove := rfl

/-- Memory: a listed blank byte, a repeated address and a falling address are not canonical. -/
theorem test_memory_wf : Memory.wf [(1, 0x00#8)] = false ∧ Memory.wf [(1, 0x01#8), (1, 0x02#8)] = false ∧
    Memory.wf [(2, 0x01#8), (1, 0x02#8)] = false ∧ Memory.wf [(1, 0x01#8), (2, 0x02#8)] = true := by decide

/-! ### Command bytes, written out by R60: reserved 0000, LIM, OP -/

theorem test_decode_decu : decode 0b00000000#8 = .ok .decu := rfl

theorem test_decode_decs : decode 0b00000001#8 = .ok .decs := rfl

theorem test_decode_decuc : decode 0b00000010#8 = .ok (.decuc false) := rfl

theorem test_decode_decuc_lim : decode 0b00001010#8 = .ok (.decuc true) := rfl

theorem test_decode_decsc : decode 0b00000011#8 = .ok (.decsc false) := rfl

theorem test_decode_decsc_lim : decode 0b00001011#8 = .ok (.decsc true) := rfl

theorem test_decode_encu : decode 0b00000100#8 = .ok .encu := rfl

theorem test_decode_sizeu : decode 0b00000101#8 = .ok .sizeu := rfl

/-- L2-1: `OP` 110 and 111, whatever `LIM` holds. -/
theorem test_decode_reserved_op : decode 0b00000110#8 = .error .reservedOp ∧ decode 0b00000111#8 = .error .reservedOp ∧
    decode 0b00001110#8 = .error .reservedOp ∧ decode 0b00001111#8 = .error .reservedOp := ⟨rfl, rfl, rfl, rfl⟩

/-- L2-1: `LIM = 1` on an operation without a limit. -/
theorem test_decode_no_limit : decode 0b00001000#8 = .error .limitNotAllowed ∧
    decode 0b00001001#8 = .error .limitNotAllowed ∧ decode 0b00001100#8 = .error .limitNotAllowed ∧
    decode 0b00001101#8 = .error .limitNotAllowed := ⟨rfl, rfl, rfl, rfl⟩

/-- L2-1: `CMD[7:4] != 0`. -/
theorem test_decode_reserved_bits : decode 0x10#8 = .error .reservedBits ∧ decode 0x12#8 = .error .reservedBits ∧
    decode 0x80#8 = .error .reservedBits ∧ decode 0xFF#8 = .error .reservedBits := ⟨rfl, rfl, rfl, rfl⟩

/-! ### The operations, on the spec's vectors -/

/-- L2-2: `80 01` is 128, two bytes read. -/
theorem test_decu_128 : answer (vector (ask 0x00#8 0 0#32) [0x80#8, 0x01#8]) =
    some (some (.decu 128#32 0x1002), 2) := by decide

/-- L1-7: `FF FF FF FF 1F` is 4294967295, tolerantly. -/
theorem test_decu_tolerant : answer (vector (ask 0x00#8 0 0#32) [0xFF#8, 0xFF#8, 0xFF#8, 0xFF#8, 0x1F#8]) =
    some (some (.decu 4294967295#32 0x1005), 5) := by decide

/-- L2-3: `80 7F` is -128 (`0xFFFFFF80`). -/
theorem test_decs_minus_128 : answer (vector (ask 0x01#8 0 0#32) [0x80#8, 0x7F#8]) =
    some (some (.decs 0xFFFFFF80#32 0x1002), 2) := by decide

/-- L2-3: `80 80 80 40` is -134217728: the sign is bit 27. -/
theorem test_decs_four_groups : answer (vector (ask 0x01#8 0 0#32) [0x80#8, 0x80#8, 0x80#8, 0x40#8]) =
    some (some (.decs (BitVec.ofInt 32 (-134217728)) 0x1004), 4) := by decide

/-- L1-8: a limit at the second byte, one byte read. -/
theorem test_decuc_limit : okAndReads (vector (ask 0x0A#8 1 0#32) [0x80#8, 0x01#8]) = some (false, 1) := by decide

/-- L2-4: `FF FF FF FF 0F` with `LIMIT = c + 5`. -/
theorem test_decuc_max : answer (vector (ask 0x0A#8 5 0#32) [0xFF#8, 0xFF#8, 0xFF#8, 0xFF#8, 0x0F#8]) =
    some (some (.decuc true 4294967295#32 0x1005), 5) := by decide

/-- L2-4: `80 80 80 80 78` is rejected, five bytes read (R109). -/
theorem test_decsc_bad_fifth :
    okAndReads (vector (ask 0x03#8 0 0#32) [0x80#8, 0x80#8, 0x80#8, 0x80#8, 0x78#8]) = some (false, 5) := by decide

/-- L2-4: `80 80 80 80 08` is -2147483648. -/
theorem test_decsc_min : answer (vector (ask 0x03#8 0 0#32) [0x80#8, 0x80#8, 0x80#8, 0x80#8, 0x08#8]) =
    some (some (.decsc true 0x80000000#32 0x1005), 5) := by decide

/-- L2-5: 300 is written as `AC 02`, and the byte after it keeps its content. -/
theorem test_encu_300 : bytesAfter (vector (ask 0x04#8 0 300#32) [0x11#8, 0x22#8, 0x33#8]) 3 =
    some [0xAC#8, 0x02#8, 0x33#8] := by decide

/-- L2-8: with `Writable` only at `c`, 128 leaves `80` at `c` and faults at `c + 1`. -/
theorem test_encu_unwritable :
    let s : State := { vector (ask 0x04#8 0 128#32) [] with
      launch := { addrWidth := 16, readable := [], writable := [{ base := 0x1000, size := 1 }] } }
    faulted s = some (.memWriteFault 0x04#8 0x1001, 1) ∧ bytesAfter s 2 = some [0x80#8, 0x00#8] := by decide

/-- L2-6, P3: 268435455 takes four bytes. -/
theorem test_sizeu_four : answer (vector (ask 0x05#8 0 268435455#32) []) = some (some (.sizeu 4#3), 0) := by decide

/-- L2-6, P3: 268435456 takes five. -/
theorem test_sizeu_five : answer (vector (ask 0x05#8 0 268435456#32) []) = some (some (.sizeu 5#3), 0) := by decide

/-! ### The whole machine, on the spec's vectors -/

/-- L2-8: `DECU @0xFFFF` of a `00` reads it and overflows. -/
theorem test_cursor_overflow :
    faulted (vector { cmd := 0x00#8, cursor := 0xFFFF, limit := 0, value := 0#32 } [0x00#8]) =
      some (.cursorOverflow 0x00#8 0x10000, 1) := by decide

/-- L2-8: an illegal command makes no access. -/
theorem test_illegal_command : faulted (vector (ask 0x06#8 0 0#32) [0x00#8]) = some (.illegalCommand 0x06#8, 0) := by
  decide

/-- P4, request 7: a request at a `Faulted` codec is not accepted. -/
theorem test_faulted_turns_away :
    let s : State := { vector (ask 0x05#8 0 1#32) [] with status := .faulted (.memWriteFault 0x04#8 0x0200) }
    (stateOf (step s)).map (fun t => (t.status, t.response, t.moves)) =
      some (.faulted (.memWriteFault 0x04#8 0x0200), none, []) := by decide

/-- P3, action 5: the host stores `11` between two requests. -/
theorem test_host_write :
    bytesAfter { vector (ask 0x02#8 0 0#32) [0x80#8, 0x01#8] with moves := [.write 0x1001 0x11#8] } 2 =
      some [0x80#8, 0x11#8] := by decide

/-- R72's notation: `DECUC @0x0300, lim=0x0308` is `CMD=0x0A CURSOR=0x0300 LIMIT=0x0308` (P2). -/
theorem test_asm_request : Asm.request none (.decuc (.at 0x0300) (some 0x0308)) =
    some { cmd := 0x0A#8, cursor := 0x0300, limit := 0x0308, value := 0#32 } := by decide

/-- R72, R166: `@prev` is the last response's `CURSOR_OUT`, and stands for none after `OK = 0`. -/
theorem test_asm_prev : Asm.request (some (.decu 300#32 0x0102)) (.decs .prev) =
      some { cmd := 0x01#8, cursor := 0x0102, limit := 0, value := 0#32 } ∧
    Asm.request (some (.decuc false 0#32 0x0102)) (.decu .prev) = none := by decide

/-- R72: a line as text. -/
theorem test_asm_text : Asm.text (.encu .prev 300#32) = "ENCU   @prev, #300" := rfl

/-! ### Witnesses: each shows a state and operands that meet a statement's hypotheses, at the edge of each clause -/

/-- A request at the last address but one of 16 bits. -/
def highAsk (cmd : Byte) (cursor : Nat) (value : Word) : Request :=
  { cmd := cmd, cursor := cursor, limit := 0xFFFF, value := value }

/-- The sequence `80 80 80 80 b`, its first byte at `c`. -/
def longSeq (r : Request) (b : Byte) : State := vector r [0x80#8, 0x80#8, 0x80#8, 0x80#8, b]

/-- A codec `Busy` with its `i`-th iteration to come. -/
def busyWith (op : Instr) (r : Request) (t : Transient) (tr : List Access) (moves : List HostMove) : State :=
  { State.reset with status := .busy op r t, trace := tr, moves := moves }

theorem witness_iteration_decode : ∃ (s : State) (r : Request) (x : Transient),
    s.status = .busy .decu r x ∧ s.Inv ∧ x.i = 4 := by
  refine ⟨busyWith .decu (ask 0x00#8 0 7#32) { acc := 0x0FFFFFFF#32, i := 4, rem := 7#32 }
    [.read 0x1000, .read 0x1001, .read 0x1002, .read 0x1003] [], _, _, rfl, ?_, rfl⟩
  refine ⟨rfl, rfl, by decide, ⟨rfl, rfl, by unfold Transient.Good; decide, rfl⟩, fun _ h => (by cases h), ?_⟩
  intro x hx
  rcases List.mem_cons.mp hx with rfl | hx
  · rfl
  rcases List.mem_cons.mp hx with rfl | hx
  · rfl
  rcases List.mem_cons.mp hx with rfl | hx
  · rfl
  rcases List.mem_cons.mp hx with rfl | hx
  · rfl
  · cases hx

/-- Also the second clause of the statement on R161: a `Busy` ENCU, one byte stored, is reset next. -/
theorem witness_iteration_encu : ∃ (s : State) (r : Request) (x : Transient),
    s.status = .busy .encu r x ∧ s.Inv ∧ x.i = 1 ∧ s.moves = .reset :: [] := by
  refine ⟨busyWith .encu (ask 0x04#8 0 128#32) { acc := 0#32, i := 1, rem := 1#32 } [.write 0x1000 0x80#8] [.reset],
    _, _, rfl, ?_, rfl, rfl⟩
  refine ⟨rfl, rfl, by decide, ⟨rfl, rfl, by unfold Transient.Good; decide, rfl⟩, fun _ h => (by cases h), ?_⟩
  intro x hx
  rcases List.mem_cons.mp hx with rfl | hx
  · rfl
  · cases hx

theorem witness_iteration_sizeu : ∃ (s : State) (r : Request) (x : Transient),
    s.status = .busy .sizeu r x ∧ s.Inv ∧ x.i = 4 := by
  refine ⟨busyWith .sizeu (ask 0x05#8 0 0xFFFFFFFF#32) { acc := 0#32, i := 4, rem := 0xF#32 } [] [], _, _, rfl, ?_, rfl⟩
  exact ⟨rfl, rfl, by decide, ⟨rfl, rfl, by unfold Transient.Good; decide, rfl⟩, fun _ h => (by cases h),
    fun _ h => (by cases h)⟩

theorem witness_step_keeps_invariant : ∃ s t : State, s.Inv ∧ step s = .next t ∧ t ≠ s := by
  refine ⟨presented (ask 0x04#8 0 128#32), _, ?_, rfl, by decide⟩
  exact ⟨rfl, rfl, by decide, Nat.zero_le 5, fun _ h => (by cases h),
    fun _ h => (by cases h)⟩

/-- The three groups of R63: the reserved bits, `OP = 110`, and `LIM = 1` with `OP = 101`. -/
theorem witness_illegal_command :
    ((presented (ask 0x10#8 0 0#32)).Presents (ask 0x10#8 0 0#32) [] ∧
      (ask 0x10#8 0 0#32).wellFormed 16 = true ∧ (ask 0x10#8 0 0#32).cmd.toNat / 16 ≠ 0) ∧
    6 ≤ (ask 0x06#8 0 0#32).cmd.toNat % 8 ∧
    ((ask 0x0D#8 0 0#32).cmd.toNat / 8 % 2 = 1 ∧ (ask 0x0D#8 0 0#32).cmd.toNat % 8 = 5) := by
  exact ⟨⟨⟨rfl, rfl⟩, by decide, by decide⟩, by decide, by decide, by decide⟩

theorem witness_step_runs_presented :
    (presented (highAsk 0x0B#8 0xFFFF 0#32)).Presents (highAsk 0x0B#8 0xFFFF 0#32) [] ∧
      (highAsk 0x0B#8 0xFFFF 0#32).wellFormed 16 = true ∧ decode (highAsk 0x0B#8 0xFFFF 0#32).cmd = .ok (.decsc true) :=
  ⟨⟨rfl, rfl⟩, by decide, rfl⟩

theorem witness_table_word : decodeTableWord 8 0x0B = some (.decsc true) ∧ decodeTableWord 8 0x00 = some .decu :=
  ⟨rfl, rfl⟩

theorem witness_busy_goes_on : (presented (ask 0x05#8 0 0#32)).Presents (ask 0x05#8 0 0#32) [] ∧
    ∀ rest' : List HostMove, [] ≠ HostMove.reset :: rest' :=
  ⟨⟨rfl, rfl⟩, fun _ h => (by cases h)⟩

/-- The hypotheses that do not name `LIMIT`, for a sequence of five bytes whose advanced cursor is the last address. -/
theorem witness_decode_responds : ∃ (s : State) (r : Request), s.Presents r [] ∧ seqLength (s.bytesFrom r.cursor) = 5 ∧
    s.ReadableRun r.cursor (seqLength (s.bytesFrom r.cursor)) ∧
    r.cursor + seqLength (s.bytesFrom r.cursor) = 0xFFFF ∧
    r.cursor + seqLength (s.bytesFrom r.cursor) < 2 ^ s.launch.addrWidth ∧
    r.cursor + seqLength (s.bytesFrom r.cursor) ≤ r.limit ∧ highNibble (s.bytesFrom r.cursor 4) = 0#4 := by
  refine ⟨longSeq (highAsk 0x00#8 0xFFFA 0#32) 0x0F#8, _, ⟨rfl, rfl⟩, by decide, ?_, by decide, by decide, by decide,
    by decide⟩
  unfold State.ReadableRun; decide

/-- Byte 1 is unreadable: `80` alone is readable. The limit, if read, lies above it. -/
theorem witness_decode_unreadable : ∃ (s : State) (r : Request),
    s.Presents r [] ∧ 1 < seqLength (s.bytesFrom r.cursor) ∧
    s.ReadableRun r.cursor 1 ∧ s.canRead (r.cursor + 1) = false ∧ r.cursor + 1 < r.limit := by
  refine ⟨{ vector (ask 0x0A#8 2 0#32) [0x80#8] with mem := [(0x1000, 0x80#8), (0x1001, 0x80#8)] }, _, ⟨rfl, rfl⟩,
    by decide, ?_, by decide, by decide⟩
  unfold State.ReadableRun; decide

/-- The sequence ends in the last byte of the address space. Its advanced cursor, `0x10000`, is above every limit, so with
`LIM = 1` this clause has no state whose request is well-formed; the witness has `LIM = 0`. -/
theorem witness_decode_overflows : ∃ (s : State) (r : Request), s.Presents r [] ∧
    s.ReadableRun r.cursor (seqLength (s.bytesFrom r.cursor)) ∧ seqLength (s.bytesFrom r.cursor) ≠ 5 ∧
    2 ^ s.launch.addrWidth ≤ r.cursor + seqLength (s.bytesFrom r.cursor) := by
  refine ⟨vector (highAsk 0x02#8 0xFFFF 0#32) [0x7F#8], _, ⟨rfl, rfl⟩, ?_, by decide, by decide⟩
  unfold State.ReadableRun; decide

/-- The limit stops a checked decode at byte 1, with `LIMIT = CURSOR + 1`. -/
theorem witness_checked_past_limit : ∃ (s : State) (r : Request),
    s.Presents r [] ∧ 1 < seqLength (s.bytesFrom r.cursor) ∧
    s.ReadableRun r.cursor 1 ∧ (∀ j, j < 1 → r.cursor + j < r.limit) ∧ r.limit ≤ r.cursor + 1 := by
  refine ⟨vector (ask 0x0A#8 1 0#32) [0x80#8, 0x01#8], _, ⟨rfl, rfl⟩, by decide, ?_, by decide, by decide⟩
  unfold State.ReadableRun; decide

/-- The fifth byte fails a checked decode, with `LIMIT = CURSOR + 5`. -/
theorem witness_checked_bad_fifth : ∃ (s : State) (r : Request),
    s.Presents r [] ∧ seqLength (s.bytesFrom r.cursor) = 5 ∧
    s.ReadableRun r.cursor 5 ∧ r.cursor + 5 ≤ r.limit ∧ highNibble (s.bytesFrom r.cursor 4) ≠ 0#4 := by
  refine ⟨longSeq (ask 0x0B#8 5 0#32) 0x10#8, _, ⟨rfl, rfl⟩, by decide, ?_, by decide, by decide⟩
  unfold State.ReadableRun; decide

/-- ENCU's first clause: five bytes, the advanced cursor the last address. -/
theorem witness_encu_responds : ∃ (s : State) (r : Request),
    s.Presents r [] ∧ s.WritableRun r.cursor (sizeByRange r.value) ∧
    sizeByRange r.value = 5 ∧ r.cursor + sizeByRange r.value < 2 ^ s.launch.addrWidth := by
  refine ⟨presented (highAsk 0x04#8 0xFFFA 0xFFFFFFFF#32), _, ⟨rfl, rfl⟩, ?_, by decide, by decide⟩
  unfold State.WritableRun; decide

/-- ENCU's second clause: the last writable address is `0x10FF`. -/
theorem witness_encu_unwritable : ∃ (s : State) (r : Request),
    s.Presents r [] ∧ 1 < sizeByRange r.value ∧ s.WritableRun r.cursor 1 ∧
    s.canWrite (r.cursor + 1) = false := by
  refine ⟨vector (highAsk 0x04#8 0x10FF 128#32) [], _, ⟨rfl, rfl⟩, by decide, ?_, by decide⟩
  unfold State.WritableRun; decide

/-- ENCU's third clause: the one byte of 5 at the last address (L2-8). -/
theorem witness_encu_overflows : ∃ (s : State) (r : Request),
    s.Presents r [] ∧ s.WritableRun r.cursor (sizeByRange r.value) ∧
    2 ^ s.launch.addrWidth ≤ r.cursor + sizeByRange r.value := by
  refine ⟨presented (highAsk 0x04#8 0xFFFF 5#32), _, ⟨rfl, rfl⟩, ?_, by decide⟩
  unfold State.WritableRun; decide

theorem witness_sizeu_presented : (presented (ask 0x05#8 0 0#32)).Presents (ask 0x05#8 0 0#32) [] := ⟨rfl, rfl⟩

theorem witness_readers_leave_memory : ∃ (s t : State) (r : Request), Instr.decsc false ≠ .encu ∧ s.Presents r [] ∧
    exec (.decsc false) s = .next t ∧ readsMemory (.decsc false) = true ∧ t.draws ≠ s.draws :=
  ⟨longSeq (ask 0x03#8 0 0#32) 0x70#8, _, _, by decide, ⟨rfl, rfl⟩, rfl, rfl, by decide⟩

theorem witness_encu_other_bytes : ∃ (s t : State) (r : Request), s.Presents r [] ∧ exec .encu s = .next t ∧
    0x0FFF < r.cursor ∧ r.cursor + sizeByRange r.value ≤ 0x1002 :=
  ⟨presented (ask 0x04#8 0 300#32), _, _, ⟨rfl, rfl⟩, rfl, by decide, by decide⟩

theorem witness_memory_changes : ∃ s t : State, step s = .next t ∧ t.mem ≠ s.mem :=
  ⟨presented (ask 0x04#8 0 300#32), _, rfl, by decide⟩

theorem witness_memory_changes_host : ∃ s t : State, step s = .next t ∧ t.mem ≠ s.mem ∧ s.moves = [.write 0 1#8] :=
  ⟨{ State.reset with moves := [.write 0 1#8] }, _, rfl, by decide, rfl⟩

theorem witness_accesses : ∃ (s t : State) (r : Request),
    s.Presents r [] ∧ exec .decu s = .next t ∧ t.trace[4]? = some (.read 0x1004) :=
  ⟨longSeq (ask 0x00#8 0 0#32) 0x80#8, _, _, ⟨rfl, rfl⟩, rfl, by decide⟩

theorem witness_decode_reads : ∃ (s t : State) (r : Request), readsMemory (.decuc true) = true ∧ s.Presents r [] ∧
    exec (.decuc true) s = .next t ∧ t.trace = readsFrom r.cursor 4 :=
  ⟨longSeq (ask 0x0A#8 4 0#32) 0x00#8, _, _, rfl, ⟨rfl, rfl⟩, rfl, by decide⟩

/-- For the statements on an ENCU that responds: the value whose group 4 is `0xF`. -/
theorem witness_encu_ends_idle : ∃ (s t : State) (r : Request),
    Memory.wf s.mem = true ∧ s.Presents r [] ∧ exec .encu s = .next t ∧
    t.status = .idle ∧ r.value ≠ 0#32 ∧ sizeByRange r.value = 5 :=
  ⟨presented (ask 0x04#8 0 0xFFFFFFFF#32), _, _, rfl, ⟨rfl, rfl⟩, rfl, by decide, by decide, by decide⟩

/-- The two memories differ at `LIMIT` itself. -/
theorem witness_blind_beyond_limit : ∃ (s : State) (r : Request) (m : List Host.Cell), s.Presents r [] ∧
    (∀ a, a < r.limit → Memory.read m a = Memory.read s.mem a) ∧ Memory.read m r.limit ≠ Memory.read s.mem r.limit := by
  refine ⟨vector (ask 0x0A#8 1 0#32) [0x80#8, 0x01#8], _, [(0x1000, 0x80#8), (0x1001, 0x7F#8)], ⟨rfl, rfl⟩, ?_,
    by decide⟩
  intro a ha
  have ha : a < 0x1001 := ha
  show Memory.read [(0x1000, 0x80#8), (0x1001, 0x7F#8)] a = Memory.read [(0x1000, 0x80#8), (0x1001, 0x01#8)] a
  simp only [Memory.read]
  rw [if_neg (show ¬ 0x1001 = a by omega), if_neg (show ¬ 0x1001 = a by omega)]

theorem witness_every_operation_ends : ∃ s t : State, step s = .next t ∧ s.status = .busy .decu (ask 0x00#8 0 0#32)
    (Transient.init (ask 0x00#8 0 0#32)) :=
  ⟨busyWith .decu (ask 0x00#8 0 0#32) (Transient.init (ask 0x00#8 0 0#32)) [] [], _, rfl, rfl⟩

theorem witness_response_shape : ∃ (s t : State) (r : Request) (resp : Response),
    s.Presents r [] ∧ exec .sizeu s = .next t ∧ t.response = some resp :=
  ⟨presented (ask 0x05#8 0 0xFFFFFFFF#32), _, _, _, ⟨rfl, rfl⟩, rfl, rfl⟩

theorem witness_cursor_out : ∃ (s t : State) (r : Request) (resp : Response),
    s.Presents r [] ∧ exec (.decuc false) s = .next t ∧ t.response = some resp ∧
    resp.nextCursor = some 0x1005 :=
  ⟨longSeq (ask 0x02#8 0 0#32) 0x0F#8, _, _, _, ⟨rfl, rfl⟩, rfl, rfl, by decide⟩

theorem witness_cursor_out_free : ∃ (s t : State) (r : Request) (v : Word) (c : Nat),
    s.Presents r [] ∧ exec (.decuc false) s = .next t ∧
    t.response = some (.decuc false v c) :=
  ⟨longSeq (ask 0x02#8 0 0#32) 0x10#8, _, _, _, _, ⟨rfl, rfl⟩, rfl, rfl⟩

theorem witness_ok_iff : ∃ (s t : State) (r : Request),
    s.Presents r [] ∧ exec (if true then .decsc true else .decuc true) s = .next t ∧
    (∃ (v : Word) (c : Nat), t.response = some (.decsc true v c)) ∧ r.cursor + seqLength (s.bytesFrom r.cursor) = r.limit :=
  ⟨longSeq (ask 0x0B#8 5 0#32) 0x08#8, _, _, ⟨rfl, rfl⟩, rfl, ⟨_, _, rfl⟩, by decide⟩

/-- `LIMIT = CURSOR`: both clauses of R106. -/
theorem witness_limit_at_cursor : ∃ (s t : State) (r : Request),
    s.Presents r [] ∧ r.limit ≤ r.cursor ∧ readsMemory (.decuc true) = true ∧
    exec (.decuc true) s = .next t ∧ t.status = .idle ∧ t.trace = [] :=
  ⟨vector (ask 0x0A#8 0 0#32) [0x00#8], _, _, ⟨rfl, rfl⟩, by decide, rfl, rfl, rfl, by decide⟩

theorem witness_fault_read : ∃ (s t : State) (r : Request), s.Presents r [] ∧ exec (.decuc true) s = .next t ∧
    t.status = .faulted (.memReadFault 0x0A#8 0x1001) ∧ r.limit = 0x1002 :=
  ⟨vector (ask 0x0A#8 2 0#32) [0x80#8], _, _, ⟨rfl, rfl⟩, rfl, by decide, rfl⟩

theorem witness_fault_write : ∃ (s t : State) (r : Request),
    Memory.wf s.mem = true ∧ s.Presents r [] ∧ exec .encu s = .next t ∧
    t.status = .faulted (.memWriteFault 0x04#8 (r.cursor + 1)) :=
  ⟨vector (highAsk 0x04#8 0x10FF 128#32) [], _, _, rfl, ⟨rfl, rfl⟩, rfl, by decide⟩

theorem witness_fault_overflow : ∃ (s t : State) (r : Request), s.Presents r [] ∧ exec .encu s = .next t ∧
    t.status = .faulted (.cursorOverflow 0x04#8 0x10000) :=
  ⟨presented (highAsk 0x04#8 0xFFFF 5#32), _, _, ⟨rfl, rfl⟩, rfl, by decide⟩

theorem witness_fault_illegal : ∃ (s t : State) (r : Request), s.Presents r [] ∧ step s = .next t ∧
    t.status = .faulted (.illegalCommand 0x06#8) :=
  ⟨presented (ask 0x06#8 0 0#32), _, _, ⟨rfl, rfl⟩, rfl, by decide⟩

/-- A `Faulted` codec: a request next, and a reset next. -/
theorem witness_faulted : ∃ (s s' t t' : State) (f : Fault) (r : Request), s.status = .faulted f ∧
    s.moves = [.request r] ∧ r.wellFormed s.launch.addrWidth = true ∧ step s = .next t ∧ s'.status = .faulted f ∧
    s'.moves = [.reset] ∧ step s' = .next t' ∧ t'.status = .idle :=
  ⟨{ presented (ask 0x05#8 0 1#32) with status := .faulted (.memReadFault 0x00#8 0) },
    { State.reset with status := .faulted (.memReadFault 0x00#8 0), moves := [.reset] },
    _, _, _, _, rfl, rfl, by decide, rfl, rfl, rfl, rfl, rfl⟩

theorem witness_reset : ∃ (s : State) (r : Request),
    (∀ op q x, s.status ≠ .busy op q x) ∧ s.moves = .reset :: [.request r] ∧
    r.wellFormed s.launch.addrWidth = true ∧ decode r.cmd = .ok .sizeu :=
  ⟨{ State.reset with
      status := .faulted (.cursorOverflow 0x00#8 0x10000), moves := [.reset, .request (ask 0x05#8 0 1#32)] },
    _, fun _ _ _ h => (by cases h), rfl, by decide, rfl⟩

theorem witness_reset_during : ∃ (s : State) (r : Request), s.status = .idle ∧ s.moves = .resetDuring r :: [] ∧
    r.wellFormed s.launch.addrWidth = true ∧ decode r.cmd = .ok .encu :=
  ⟨{ State.reset with moves := [.resetDuring (ask 0x04#8 0 300#32)] }, _, rfl, rfl, by decide, rfl⟩

theorem witness_host_write : ∃ (s : State), Memory.wf s.mem = true ∧ (∀ op r x, s.status ≠ .busy op r x) ∧
    s.moves = .write 0xFFFF 0x00#8 :: [] ∧ 0xFFFF < 2 ^ s.launch.addrWidth :=
  ⟨{ State.reset with mem := [(0xFFFF, 0x55#8)], moves := [.write 0xFFFF 0x00#8] }, rfl, fun _ _ _ h => (by cases h),
    rfl, by decide⟩

theorem witness_run_ends : State.reset.status = .idle ∧ State.reset.moves = [] ∧
    (∃ (s : State) (f : Fault), s.status = .faulted f ∧ s.moves = [] ∧ step s = .fault f) ∧
    HostMove.wellFormed State.reset.launch.addrWidth (.write 0x10000 0x01#8) = false :=
  ⟨rfl, rfl, ⟨{ State.reset with status := .faulted (.illegalCommand 0x06#8) }, _, rfl, rfl, rfl⟩, by decide⟩

/-- Two ways to the same two bytes. -/
theorem witness_canonical_memory : Memory.wf (Memory.write (Memory.write [] 2 0x02#8) 1 0x01#8) = true ∧
    Memory.wf (Memory.write (Memory.write [] 1 0x01#8) 2 0x02#8) = true ∧
    ∀ a, Memory.read (Memory.write (Memory.write [] 2 0x02#8) 1 0x01#8) a =
      Memory.read (Memory.write (Memory.write [] 1 0x01#8) 2 0x02#8) a :=
  ⟨by decide, by decide, fun _ => rfl⟩

/-- `LIMIT` and `VALUE` differ, which a decode without a limit does not read. -/
theorem witness_unread_fields : ∃ (s : State) (r r' : Request),
    s.Presents r [] ∧ r'.cmd = r.cmd ∧ r'.cursor = r.cursor ∧
    r'.limit ≠ r.limit ∧ r'.value ≠ r.value :=
  ⟨presented (ask 0x02#8 0 0#32), _, ask 0x02#8 1 1#32, ⟨rfl, rfl⟩, rfl, rfl, by decide, by decide⟩

/-- `N = 1` and `N = 4`, each with the sign bit set and at the largest value. -/
theorem witness_sign_extension : (0x7F#32).toNat < 2 ^ (7 * 1) ∧ (0x7F#32).getLsbD (7 * 1 - 1) = true ∧
    (0x0FFFFFFF#32).toNat < 2 ^ (7 * 4) ∧ (0x0FFFFFFF#32).getLsbD (7 * 4 - 1) = true ∧
    (0x3F#32).getLsbD (7 * 1 - 1) = false := by decide

theorem witness_signed_extends : ∃ (s t : State) (r : Request) (v : Word) (c : Nat),
    s.Presents r [] ∧ exec .decu s = .next t ∧ t.response = some (.decu v c) ∧
    v.getLsbD (7 * (c - r.cursor) - 1) = true :=
  ⟨vector (ask 0x00#8 0 0#32) [0x80#8, 0x40#8], _, _, _, _, ⟨rfl, rfl⟩, rfl, rfl, by decide⟩

/-- R85's two fifth bytes, `0x0F` and `0xFF`. -/
theorem witness_fifth_byte : ∃ (s t : State) (r : Request), Memory.wf s.mem = true ∧ s.Presents r [] ∧
    (∀ k, k < 4 → continues (s.bytesFrom r.cursor k) = true) ∧ lowNibble 0x0F#8 = lowNibble 0xFF#8 ∧
    exec .decu (s.hostWrite (r.cursor + 4) 0x0F#8) = .next t := by
  refine ⟨longSeq (ask 0x00#8 0 0#32) 0x01#8, _, _, by decide, ⟨rfl, rfl⟩, ?_, by decide, rfl⟩
  decide

theorem witness_checked_ok : ∃ (s t t' : State) (r : Request) (v : Word) (c : Nat) (v' : Word) (c' : Nat),
    s.Presents r [] ∧ exec (.decuc true) s = .next t ∧
    t.response = some (.decuc true v c) ∧ exec (.decsc true) s = .next t' ∧ t'.response = some (.decsc true v' c') :=
  ⟨vector (ask 0x0A#8 2 0#32) [0x80#8, 0x01#8], _, _, _, _, _, _, _, ⟨rfl, rfl⟩, rfl, rfl, rfl, rfl⟩

/-- The fifth byte fails, and the advanced cursor is the last address. -/
theorem witness_checked_fails : ∃ (s t t' : State) (r : Request) (v : Word) (c : Nat) (v' : Word) (c' : Nat),
    s.Presents r [] ∧ exec (.decuc false) s = .next t ∧
    t.response = some (.decuc false v c) ∧ t.trace.length = 5 ∧ exec (.decsc false) s = .next t' ∧
    t'.response = some (.decsc false v' c') ∧ t'.trace.length = 5 ∧ r.cursor + 5 < 2 ^ s.launch.addrWidth :=
  ⟨longSeq (highAsk 0x02#8 0xFFFA 0#32) 0x1F#8, _, _, _, _, _, _, _, ⟨rfl, rfl⟩, rfl, rfl, by decide, rfl, rfl,
    by decide, by decide⟩

/-- A minimal sequence of five bytes. -/
theorem witness_unique_minimal : ∃ (s t : State) (r : Request) (v : Word) (c : Nat),
    s.Presents r [] ∧ exec .decu s = .next t ∧ t.response = some (.decu v c) ∧
    c - r.cursor = sizeByRange v ∧ sizeByRange v = 5 ∧ highNibble (s.bytesFrom r.cursor 4) = 0#4 :=
  ⟨longSeq (ask 0x00#8 0 0#32) 0x01#8, _, _, _, _, ⟨rfl, rfl⟩, rfl, rfl, by decide, by decide, by decide⟩

theorem witness_size_predicts : ∃ (s t s' t' : State) (r r' : Request) (n : BitVec 3),
    s.Presents r [] ∧ s'.Presents r' [] ∧ r'.value = r.value ∧
    exec .encu s = .next t ∧ t.status = .idle ∧ exec .sizeu s' = .next t' ∧ t'.response = some (.sizeu n) :=
  ⟨presented (ask 0x04#8 0 300#32), _, presented (ask 0x05#8 0 300#32), _, _, _, _, ⟨rfl, rfl⟩, ⟨rfl, rfl⟩, rfl, rfl,
    by decide, rfl, rfl⟩

/-- The state left by an ENCU, with a decode at the same cursor presented next and a limit just at the sequence's end. -/
theorem witness_round_trip : ∃ (s t s' : State) (r r' : Request),
    Memory.wf s.mem = true ∧ s.Presents r [] ∧ exec .encu s = .next t ∧
    t.status = .idle ∧ s'.Presents r' [] ∧ r'.cursor = r.cursor ∧ s'.launch.addrWidth = s.launch.addrWidth ∧
    s'.ReadableRun r.cursor (sizeByRange r.value) ∧
    (∀ k, k < sizeByRange r.value → s'.byteAt (r.cursor + k) = t.byteAt (r.cursor + k)) ∧
    r.cursor + sizeByRange r.value ≤ r'.limit := by
  refine ⟨presented (ask 0x04#8 0 64#32), _,
    { State.reset with mem := [(0x1000, 0x40#8)], moves := [.request (ask 0x0A#8 1 0#32)] }, _, _,
    rfl, ⟨rfl, rfl⟩, rfl, by decide, ⟨rfl, rfl⟩, rfl, rfl, ?_, ?_, by decide⟩
  · unfold State.ReadableRun; decide
  · decide

end Sys2Proof.Tests
end

section
/-!
PROOFS. The laws the proofs below share: what one iteration of an operation can do, and what a `Busy` codec and the host's
next move lead to.
-/

namespace Sys2Proof.Machine

/-! ### The states an access leaves -/

/-- The state after an admitted read (R45). -/
def State.afterRead (s : State) (a : Nat) : State := { s with trace := s.trace ++ [Access.read a] }

/-- The state after an admitted write (R46). -/
def State.afterWrite (s : State) (a : Nat) (b : Byte) : State :=
  { s with mem := Memory.write s.mem a b, trace := s.trace ++ [Access.write a b] }

@[simp] theorem State.afterRead_launch (s : State) (a : Nat) : (s.afterRead a).launch = s.launch := rfl
@[simp] theorem State.afterRead_mem (s : State) (a : Nat) : (s.afterRead a).mem = s.mem := rfl
@[simp] theorem State.afterRead_trace (s : State) (a : Nat) :
    (s.afterRead a).trace = s.trace ++ [Access.read a] := rfl
@[simp] theorem State.afterWrite_launch (s : State) (a : Nat) (b : Byte) : (s.afterWrite a b).launch = s.launch := rfl
@[simp] theorem State.afterWrite_mem (s : State) (a : Nat) (b : Byte) :
    (s.afterWrite a b).mem = Memory.write s.mem a b := rfl
@[simp] theorem State.afterWrite_trace (s : State) (a : Nat) (b : Byte) :
    (s.afterWrite a b).trace = s.trace ++ [Access.write a b] := rfl

/-- The byte an admitted read gives, and the state it leaves. -/
theorem State.memRead_eq_afterRead (s : State) (a : Nat) (h : s.canRead a = true) :
    s.memRead a = some (s.byteAt a, s.afterRead a) :=
  s.memRead_admitted a h

/-- The state an admitted write leaves. -/
theorem State.memWrite_eq_afterWrite (s : State) (a : Nat) (b : Byte) (h : s.canWrite a = true) :
    s.memWrite a b = some (s.afterWrite a b) :=
  s.memWrite_admitted a b h

/-! ### What one iteration can do -/

/-- What one byte makes of a decode (R80): one more group, a good end after it, or the fifth-byte check fails. -/
theorem groupStep_cases (checked : Bool) (t : Transient) (b : Byte) :
    (t.i < 4 ∧ groupStep checked t b = .more { t with acc := placeGroup t.acc t.i b, i := t.i + 1 }) ∨
      (∃ acc n, (t.i ≤ 4 → n = t.i + 1) ∧ groupStep checked t b = .ok acc n) ∨
      (badFinalByte checked b = true ∧ groupStep checked t b = .invalid) := by
  unfold groupStep
  split
  · rename_i h4
    split
    · exact .inl ⟨h4, rfl⟩
    · exact .inr (.inl ⟨_, _, fun _ => rfl, rfl⟩)
  · split
    · rename_i hb
      exact .inr (.inr ⟨hb, rfl⟩)
    · exact .inr (.inl ⟨_, 5, by omega, rfl⟩)

/-- One iteration of a decode: the limit stops it or the byte at `CURSOR + i` is not readable, or it reads that byte and
goes on, ends well or fails the fifth-byte check (R80, R145). -/
theorem decodeTick_cases (op : Instr) (checked lim signed : Bool) (r : Request) (t : Transient) (s u : State)
    (hu : decodeTick op checked lim signed r t s = u) :
    (pastLimit checked lim r (r.cursor + t.i) = true ∧ u = s.invalid (decodeResponse checked signed false)) ∨
      (s.canRead (r.cursor + t.i) = false ∧ u = s.raise (.memReadFault r.cmd (r.cursor + t.i))) ∨
      (s.canRead (r.cursor + t.i) = true ∧
        ((t.i < 4 ∧ u = (s.afterRead (r.cursor + t.i)).keepBusy op r
            { t with acc := placeGroup t.acc t.i (s.byteAt (r.cursor + t.i)), i := t.i + 1 }) ∨
          (∃ n v, (t.i ≤ 4 → n = t.i + 1) ∧
            u = (s.afterRead (r.cursor + t.i)).finish r n (decodeResponse checked signed true v)) ∨
          (badFinalByte checked (s.byteAt (r.cursor + t.i)) = true ∧
            u = (s.afterRead (r.cursor + t.i)).invalid (decodeResponse checked signed false)))) := by
  unfold decodeTick at hu
  split at hu
  · rename_i hl
    exact .inl ⟨hl, hu.symm⟩
  · cases hr : s.canRead (r.cursor + t.i) with
    | false =>
      rw [State.memRead_refused s _ hr] at hu
      exact .inr (.inl ⟨rfl, hu.symm⟩)
    | true =>
      rw [State.memRead_eq_afterRead s _ hr] at hu
      refine .inr (.inr ⟨rfl, ?_⟩)
      rcases groupStep_cases checked t (s.byteAt (r.cursor + t.i)) with ⟨h4, he⟩ | ⟨acc, n, hn, he⟩ | ⟨hb, he⟩ <;>
        simp only [he] at hu
      · exact .inl ⟨h4, hu.symm⟩
      · exact .inr (.inl ⟨n, _, hn, hu.symm⟩)
      · exact .inr (.inr ⟨hb, hu.symm⟩)

/-- One iteration of ENCU: the byte at `CURSOR + i` is not writable, or it is written, as the last or before more. -/
theorem encuTick_cases (r : Request) (t : Transient) (s u : State) (hu : encuTick r t s = u) :
    (s.canWrite (r.cursor + t.i) = false ∧ u = s.raise (.memWriteFault r.cmd (r.cursor + t.i))) ∨
      (s.canWrite (r.cursor + t.i) = true ∧
        ∃ b, u = (s.afterWrite (r.cursor + t.i) b).finish r (t.i + 1) .encu ∨
          (t.rem >>> 7 ≠ 0#32 ∧ u = (s.afterWrite (r.cursor + t.i) b).keepBusy .encu r
            { t with rem := t.rem >>> 7, i := t.i + 1 })) := by
  subst hu
  unfold encuTick
  cases hw : s.canWrite (r.cursor + t.i) with
  | false =>
    refine .inl ⟨rfl, ?_⟩
    simp only [State.memWrite_refused s _ _ hw, ite_self]
  | true =>
    refine .inr ⟨rfl, ?_⟩
    simp only [State.memWrite_eq_afterWrite s _ _ hw]
    split
    · exact ⟨lastByte t.rem, .inl rfl⟩
    · rename_i hfit
      exact ⟨moreByte t.rem, .inr ⟨by simpa [fitsGroup] using hfit, rfl⟩⟩

@[simp] theorem State.finish_mem (s : State) (r : Request) (n : Nat) (resp : Nat → Response) :
    (s.finish r n resp).mem = s.mem := by
  rcases s.finish_cases r n resp with ⟨-, he⟩ | ⟨-, he⟩ <;> rw [he] <;> rfl

@[simp] theorem State.invalid_mem (s : State) (resp : Word → Nat → Response) : (s.invalid resp).mem = s.mem := rfl

/-- The codec is `Busy` with no other operation than `op`, if it is `Busy` at all. -/
def State.BusyOnlyWith (op : Instr) (s : State) : Prop := ∀ op' r t, s.status = .busy op' r t → op' = op

/-- One iteration ends the operation or leaves the codec `Busy` with the same one (R29). -/
theorem opTick_busyOnlyWith (op : Instr) (r : Request) (t : Transient) (s : State) :
    (opTick op r t s).BusyOnlyWith op := by
  have hfinish (s : State) (n : Nat) (resp : Nat → Response) : (s.finish r n resp).BusyOnlyWith op := by
    rcases s.finish_cases r n resp with ⟨-, he⟩ | ⟨-, he⟩ <;> rw [he] <;> intro _ _ _ hs <;> cases hs
  intro op' r' t' hs
  rcases Instr_cases op with hop | rfl | rfl
  · rw [opTick_decode op hop] at hs
    rcases decodeTick_cases op _ _ _ r t s _ rfl with
      ⟨-, hu⟩ | ⟨-, hu⟩ | ⟨-, ⟨-, hu⟩ | ⟨n, v, -, hu⟩ | ⟨-, hu⟩⟩ <;> rw [hu] at hs
    · cases hs
    · cases hs
    · cases hs; rfl
    · exact hfinish _ _ _ _ _ _ hs
    · cases hs
  · rcases encuTick_cases r t s _ rfl with ⟨-, hu⟩ | ⟨-, b, hu | ⟨-, hu⟩⟩ <;> rw [opTick, hu] at hs
    · cases hs
    · exact hfinish _ _ _ _ _ _ hs
    · cases hs; rfl
  · rw [opTick, sizeuTick] at hs
    split at hs <;> cases hs
    rfl

theorem State.accept_busyOnlyWith (s : State) (op : Instr) (r : Request) (rest : List HostMove) :
    (s.accept op r rest).BusyOnlyWith op := by
  intro op' r' t' hs
  cases hs
  rfl

/-! ### A `Busy` codec goes on, and the host moves -/

/-- A `Busy` codec whose next move is no reset runs to its end. -/
theorem State.goOn_run (op : Instr) (s : State) (hm : ∀ rest, s.moves ≠ .reset :: rest) :
    s.goOn op = runBusy (opTick op) Config.maxBytes s := by
  unfold State.goOn
  split
  · rename_i rest he
    exact absurd he (hm rest)
  · rfl

/-- A `Busy` codec is reset (R161) or runs to its end. -/
theorem State.goOn_cases (op : Instr) (s : State) :
    (∃ rest, s.moves = .reset :: rest ∧ s.goOn op = State.resetWhileBusy (opTick op) { s with moves := rest }) ∨
      s.goOn op = runBusy (opTick op) Config.maxBytes s := by
  by_cases hm : ∃ rest, s.moves = .reset :: rest
  · obtain ⟨rest, hm⟩ := hm
    exact .inl ⟨rest, hm, by rw [State.goOn, hm]⟩
  · exact .inr (s.goOn_run op (not_exists.mp hm))

/-- A request presented to an `Idle` codec whose command is legal. -/
theorem State.presentIdle_legal (s : State) (r : Request) (rest : List HostMove) (i : Instr)
    (hcmd : decode r.cmd = .ok i) : s.presentIdle r rest = exec i s := by
  rw [State.presentIdle, hcmd]

/-- A request presented to an `Idle` codec whose command is not (R63, R142). -/
theorem State.presentIdle_illegal (s : State) (r : Request) (rest : List HostMove) (e : DecodeReject)
    (hcmd : decode r.cmd = .error e) :
    s.presentIdle r rest = .next (State.raise (.illegalCommand r.cmd) { s with trace := [], moves := rest }) := by
  rw [State.presentIdle, hcmd]

theorem State.presentThenReset_legal (s : State) (r : Request) (rest : List HostMove) (i : Instr)
    (hcmd : decode r.cmd = .ok i) :
    s.presentThenReset r rest = State.resetWhileBusy (opTick i) (s.accept i r rest) := by
  rw [State.presentThenReset, hcmd]

theorem State.presentThenReset_illegal (s : State) (r : Request) (rest : List HostMove) (e : DecodeReject)
    (hcmd : decode r.cmd = .error e) : s.presentThenReset r rest = State.hostReset { s with moves := rest } := by
  rw [State.presentThenReset, hcmd]

theorem HostMove.wellFormed_write {w a : Nat} {b : Byte} (h : (HostMove.write a b).wellFormed w = true) : a < 2 ^ w :=
  of_decide_eq_true h

theorem State.idle_or_faulted (s : State) (hs : ∀ op r x, s.status ≠ .busy op r x) :
    s.status = .idle ∨ ∃ f, s.status = .faulted f := by
  cases hst : s.status with
  | idle => exact .inl rfl
  | faulted f => exact .inr ⟨f, rfl⟩
  | busy op r x => exact absurd hst (hs op r x)

/-- `CMD = 0x04` is the one command byte of ENCU (R61). -/
theorem cmd_of_decode_encu : ∀ cmd : Byte, decode cmd = .ok .encu → cmd = 0x04#8 := by decide

end Sys2Proof.Machine
end

section
/-!
PROOFS. The invariant (10_state.md R28, R29; 20_memory.md R42, R45, R46; 60_exceptions.md R142): every iteration of a
`Busy` codec and every step keeps it.
-/

namespace Sys2Proof.Machine

/-! ### The invariant, its clauses that do not speak of the status apart -/

/-- The clauses of the invariant on the launch parameters, on memory, on the response and on the accesses made. -/
structure State.Sound (s : State) : Prop where
  launch_wf : s.launch.wellFormed = true
  mem_wf : Memory.wf s.mem = true
  mem_lt : ∀ c ∈ s.mem, c.1 < 2 ^ s.launch.addrWidth
  response_fits : ∀ resp, s.response = some resp → resp.Fits s.launch.addrWidth
  trace_admitted : ∀ x ∈ s.trace, s.Admits x

theorem State.inv_iff (s : State) : s.Inv ↔ s.Sound ∧ s.status.Good s.launch s.trace :=
  ⟨fun ⟨hl, hm, hlt, hst, hr, htr⟩ => ⟨⟨hl, hm, hlt, hr, htr⟩, hst⟩,
    fun ⟨⟨hl, hm, hlt, hr, htr⟩, hst⟩ => ⟨hl, hm, hlt, hst, hr, htr⟩⟩

theorem State.Inv.sound {s : State} (h : s.Inv) : s.Sound := (s.inv_iff.mp h).1

theorem State.Inv.status_good {s : State} (h : s.Inv) : s.status.Good s.launch s.trace := (s.inv_iff.mp h).2

theorem State.admits_congr (s t : State) (h : t.launch = s.launch) (x : Access) : t.Admits x ↔ s.Admits x := by
  cases x with
  | read a => simp only [State.Admits, State.canRead_congr s t h]
  | write a b => simp only [State.Admits, State.canWrite_congr s t h]

/-- Status, moves and draws are free in `Sound`; a new response must fit and new accesses must be admitted. -/
theorem State.Sound.congr {s t : State} (h : s.Sound) (hl : t.launch = s.launch) (hm : t.mem = s.mem)
    (hr : ∀ resp, t.response = some resp → resp.Fits s.launch.addrWidth) (htr : ∀ x ∈ t.trace, s.Admits x) :
    t.Sound where
  launch_wf := hl ▸ h.launch_wf
  mem_wf := hm ▸ h.mem_wf
  mem_lt := by rw [hl, hm]; exact h.mem_lt
  response_fits := by rw [hl]; exact hr
  trace_admitted x hx := (s.admits_congr t hl x).mpr (htr x hx)

theorem Memory.write_lt (m : List Host.Cell) (a n : Nat) (b : Byte) (ha : a < n) (h : ∀ c ∈ m, c.1 < n) :
    ∀ c ∈ Memory.write m a b, c.1 < n := by
  intro c hc
  rcases Memory.mem_write m a b c hc with hc | rfl
  · exact h c hc
  · exact ha

/-! ### What reads, writes and the ends of an operation keep -/

theorem State.Sound.afterRead {s : State} (h : s.Sound) {a : Nat} (ha : s.canRead a = true) :
    (s.afterRead a).Sound := by
  refine h.congr rfl rfl h.response_fits fun x hx => ?_
  rcases List.mem_append.mp hx with hx | hx
  · exact h.trace_admitted x hx
  · obtain rfl := List.mem_singleton.mp hx
    exact ha

theorem State.Sound.hostWrite {s : State} (h : s.Sound) {a : Nat} (ha : a < 2 ^ s.launch.addrWidth) (b : Byte) :
    (s.hostWrite a b).Sound where
  launch_wf := h.launch_wf
  mem_wf := Memory.write_wf s.mem a b h.mem_wf
  mem_lt := Memory.write_lt s.mem a _ b ha h.mem_lt
  response_fits := h.response_fits
  trace_admitted x hx := (s.admits_congr _ rfl x).mpr (h.trace_admitted x hx)

theorem State.Sound.afterWrite {s : State} (h : s.Sound) {a : Nat} (ha : s.canWrite a = true) (b : Byte) :
    (s.afterWrite a b).Sound := by
  have hw := h.hostWrite (s.canWrite_lt a ha) b
  refine hw.congr rfl rfl hw.response_fits fun x hx => ?_
  rcases List.mem_append.mp hx with hx | hx
  · exact hw.trace_admitted x hx
  · obtain rfl := List.mem_singleton.mp hx
    exact ha

theorem State.Sound.inv_raise {s : State} (h : s.Sound) {f : Fault} (hf : f.Truthful s.launch)
    (hlen : s.trace.length ≤ Config.maxBytes) : (s.raise f).Inv :=
  (State.inv_iff _).mpr ⟨h.congr rfl rfl (fun _ hr => nomatch hr) h.trace_admitted, hf, hlen⟩

theorem State.Sound.inv_respond {s : State} (h : s.Sound) {resp : Response} (hr : resp.Fits s.launch.addrWidth)
    (hlen : s.trace.length ≤ Config.maxBytes) : (s.respond resp).Inv := by
  refine (State.inv_iff _).mpr ⟨h.congr rfl rfl (fun _ he => ?_) h.trace_admitted, hlen⟩
  cases he
  exact hr

theorem State.Sound.inv_keepBusy {s : State} (h : s.Sound) {op : Instr} {r : Request} {t : Transient}
    (hst : (Status.busy op r t).Good s.launch s.trace) : (s.keepBusy op r t).Inv :=
  (State.inv_iff _).mpr ⟨h.congr rfl rfl h.response_fits h.trace_admitted, hst⟩

theorem State.Sound.inv_invalid {s : State} (h : s.Sound) {resp : Word → Nat → Response}
    (hr : ∀ v c, c < 2 ^ s.launch.addrWidth → (resp v c).Fits s.launch.addrWidth)
    (hlen : s.trace.length ≤ Config.maxBytes) : (s.invalid resp).Inv := by
  have hd : State.Sound { s with draws := s.draws + 1 } := h.congr rfl rfl h.response_fits h.trace_admitted
  exact hd.inv_respond (hr _ _ (Nat.mod_lt _ (Nat.two_pow_pos _))) hlen

/-- `Finish` after an access at the byte before the advanced cursor: an overflow is at exactly `2^ADDR_WIDTH` (R144). -/
theorem State.Sound.inv_finish {s : State} (h : s.Sound) {r : Request} {n : Nat} {resp : Nat → Response}
    (hr : ∀ c, c < 2 ^ s.launch.addrWidth → (resp c).Fits s.launch.addrWidth)
    (hc : r.cursor + n ≤ 2 ^ s.launch.addrWidth) (hop : ∃ i, decode r.cmd = .ok i ∧ i ≠ .sizeu)
    (hlen : s.trace.length ≤ Config.maxBytes) : (s.finish r n resp).Inv := by
  rcases s.finish_cases r n resp with ⟨hfit, he⟩ | ⟨hover, he⟩
  · rw [he]
    exact h.inv_respond (hr _ hfit) hlen
  · rw [he]
    exact h.inv_raise ⟨Nat.le_antisymm hc hover, hop⟩ hlen

theorem decodeResponse_fits (checked signed ok : Bool) (v : Word) (c w : Nat) (h : c < 2 ^ w) :
    (decodeResponse checked signed ok v c).Fits w := by
  cases checked <;> cases signed <;> exact h

/-! ### The transient state (R28) -/

/-- Placing group `i` fills the accumulator below bit `7*(i+1)`. -/
theorem placeGroup_lt (acc : Word) (i : Nat) (b : Byte) (h : acc.toNat < 2 ^ (7 * i)) :
    (placeGroup acc i b).toNat < 2 ^ (7 * (i + 1)) := by
  have hp : ((payload b).setWidth 32 <<< (7 * i)).toNat < 2 ^ (7 * (i + 1)) := by
    rw [BitVec.toNat_shiftLeft, Nat.shiftLeft_eq, BitVec.toNat_setWidth_of_le (by omega), Nat.mul_succ, Nat.pow_add,
      Nat.mul_comm (2 ^ (7 * i))]
    exact (Nat.mod_le _ _).trans_lt (Nat.mul_lt_mul_of_pos_right (payload b).isLt (Nat.two_pow_pos _))
  have ha : acc.toNat < 2 ^ (7 * (i + 1)) := h.trans_le (Nat.pow_le_pow_right (by omega) (by omega))
  rw [placeGroup, BitVec.toNat_or]
  exact Nat.or_lt_two_pow ha hp

theorem Transient.good_init (op : Instr) (r : Request) : (Transient.init r).Good op r := by
  refine ⟨Nat.zero_le 4, Nat.zero_lt_one, ?_, fun _ => sizeByRange_pos r.value⟩
  simp [Transient.init]

/-- A decode that goes on has placed one more group. -/
theorem Transient.Good.placeGroup {op : Instr} {r : Request} {t : Transient} (h : t.Good op r)
    (hop : readsMemory op = true) (hi : t.i < 4) (b : Byte) :
    Transient.Good op r { t with acc := placeGroup t.acc t.i b, i := t.i + 1 } := by
  obtain ⟨-, hacc, hrem, -⟩ := h
  refine ⟨hi, placeGroup_lt t.acc t.i b hacc, ?_, fun hno => absurd hop (by simp [hno])⟩
  simpa [hop] using hrem

/-- An ENCU or a SIZEU that goes on has emitted one more group, and has one left. -/
theorem Transient.Good.shift {op : Instr} {r : Request} {t : Transient} (h : t.Good op r)
    (hop : readsMemory op = false) (hz : t.rem >>> 7 ≠ 0#32) :
    Transient.Good op r { t with rem := t.rem >>> 7, i := t.i + 1 } := by
  obtain ⟨hi, hacc, hrem, -⟩ := h
  replace hrem : t.rem = r.value >>> (7 * t.i) := by simpa [hop] using hrem
  have hmore : t.i + 1 < sizeByRange r.value := by
    rw [hrem, Ne, shifted_eq_zero_iff r.value t.i hi] at hz
    omega
  have h5 := sizeByRange_le r.value
  refine ⟨by simp only; omega, hacc.trans_le (Nat.pow_le_pow_right (by omega) (by simp only; omega)), ?_, fun _ => hmore⟩
  simp only [hop, hrem, shifted_succ, Bool.false_eq_true, if_false]

/-! ### One iteration keeps the invariant -/

/-- One access more is within the bound of R42 while fewer than five are on record. -/
theorem State.afterRead_room (s : State) (a : Nat) (h : s.trace.length < Config.maxBytes) :
    (s.afterRead a).trace.length ≤ Config.maxBytes := by
  simpa using h

theorem State.afterWrite_room (s : State) (a : Nat) (b : Byte) (h : s.trace.length < Config.maxBytes) :
    (s.afterWrite a b).trace.length ≤ Config.maxBytes := by
  simpa using h

section
variable {s : State} {op : Instr} {r : Request} {t : Transient}

theorem decodeTick_keeps_inv (checked lim signed : Bool) (hop : readsMemory op = true) (hs : s.status = .busy op r t)
    (h : s.Inv) : (decodeTick op checked lim signed r t s).Inv := by
  have hsound := h.sound
  obtain ⟨hcmd, hwf, hgood, hlen⟩ : (Status.busy op r t).Good s.launch s.trace := hs ▸ h.status_good
  have hi : t.i ≤ 4 := hgood.1
  have hne : op ≠ .sizeu := by rintro rfl; exact absurd hop (by decide)
  rw [if_neg hne] at hlen
  have hroom : s.trace.length < Config.maxBytes := by rw [hlen]; exact Nat.lt_succ_of_le hi
  have hfits (ok : Bool) (v : Word) (c : Nat) := decodeResponse_fits checked signed ok v c s.launch.addrWidth
  rcases decodeTick_cases op checked lim signed r t s _ rfl with
    ⟨-, hu⟩ | ⟨hno, hu⟩ | ⟨hread, ⟨h4, hu⟩ | ⟨n, v, hn, hu⟩ | ⟨-, hu⟩⟩ <;> rw [hu]
  · exact hsound.inv_invalid (hfits false) hroom.le
  · exact hsound.inv_raise ⟨hno, op, hcmd, hop⟩ hroom.le
  · refine (hsound.afterRead hread).inv_keepBusy ⟨hcmd, hwf, hgood.placeGroup hop h4 _, ?_⟩
    rw [if_neg hne]
    simp [hlen]
  · have hlt := s.canRead_lt _ hread
    rw [hn hi]
    exact (hsound.afterRead hread).inv_finish (hfits true v) hlt ⟨op, hcmd, hne⟩ (s.afterRead_room _ hroom)
  · exact (hsound.afterRead hread).inv_invalid (hfits false) (s.afterRead_room _ hroom)

theorem encuTick_keeps_inv (hs : s.status = .busy .encu r t) (h : s.Inv) : (encuTick r t s).Inv := by
  have hsound := h.sound
  obtain ⟨hcmd, hwf, hgood, hlen⟩ : (Status.busy .encu r t).Good s.launch s.trace := hs ▸ h.status_good
  have hi : t.i ≤ 4 := hgood.1
  rw [if_neg (by decide)] at hlen
  have hroom : s.trace.length < Config.maxBytes := by rw [hlen]; exact Nat.lt_succ_of_le hi
  rcases encuTick_cases r t s _ rfl with ⟨hno, hu⟩ | ⟨hwrite, b, hu | ⟨hz, hu⟩⟩ <;> rw [hu]
  · exact hsound.inv_raise ⟨hno, hcmd⟩ hroom.le
  · have hlt := s.canWrite_lt _ hwrite
    exact (hsound.afterWrite hwrite b).inv_finish (fun _ hc => hc) hlt ⟨.encu, hcmd, by decide⟩
      (s.afterWrite_room _ b hroom)
  · refine (hsound.afterWrite hwrite b).inv_keepBusy ⟨hcmd, hwf, hgood.shift rfl hz, ?_⟩
    rw [if_neg (by decide)]
    simp [hlen]

theorem sizeuTick_keeps_inv (hs : s.status = .busy .sizeu r t) (h : s.Inv) : (sizeuTick r t s).Inv := by
  have hsound := h.sound
  obtain ⟨hcmd, hwf, hgood, hlen⟩ : (Status.busy .sizeu r t).Good s.launch s.trace := hs ▸ h.status_good
  have hi : t.i ≤ 4 := hgood.1
  unfold sizeuTick
  split
  · have hcount : (BitVec.ofNat 3 (t.i + 1)).toNat = t.i + 1 := by
      rw [BitVec.toNat_ofNat, Nat.mod_eq_of_lt (by omega)]
    refine hsound.inv_respond ?_ (by rw [hlen]; exact Nat.zero_le _)
    simp only [Response.Fits, hcount]
    omega
  · rename_i hz
    exact hsound.inv_keepBusy ⟨hcmd, hwf, hgood.shift rfl hz, hlen⟩

/-- One iteration of a `Busy` codec keeps the invariant. -/
theorem opTick_keeps_inv (hs : s.status = .busy op r t) (h : s.Inv) : (opTick op r t s).Inv := by
  rcases Instr_cases op with hop | rfl | rfl
  · rw [opTick_decode op hop]
    exact decodeTick_keeps_inv _ _ _ hop hs h
  · exact encuTick_keeps_inv hs h
  · exact sizeuTick_keeps_inv hs h

end

/-- Settles O3, by the cases of one iteration of a decode, of ENCU and of SIZEU. -/
theorem iterationKeepsInvariant : Obligations.IterationKeepsInvariant :=
  fun _ _ _ _ hs h => opTick_keeps_inv hs h

/-! ### A run of iterations, and every step -/

theorem runBusy_keeps_inv (op : Instr) (n : Nat) {s : State} (hop : s.BusyOnlyWith op) (h : s.Inv) :
    (runBusy (opTick op) n s).Inv := by
  refine (runBusy_keeps (opTick op) (fun s => s.BusyOnlyWith op ∧ s.Inv) ?_ n s ⟨hop, h⟩).2
  rintro s op' r t hs ⟨hop, h⟩
  obtain rfl := hop op' r t hs
  exact ⟨opTick_busyOnlyWith op' r t s, opTick_keeps_inv hs h⟩

theorem State.Sound.inv_accept {s : State} (h : s.Sound) {op : Instr} {r : Request} (hcmd : decode r.cmd = .ok op)
    (hwf : r.wellFormed s.launch.addrWidth = true) (rest : List HostMove) : (s.accept op r rest).Inv :=
  (State.inv_iff _).mpr ⟨h.congr rfl rfl (fun _ hr => nomatch hr) (fun _ hx => nomatch hx),
    hcmd, hwf, Transient.good_init op r, by simp [Transient.init]⟩

theorem State.Sound.inv_hostReset {s : State} (h : s.Sound) : s.hostReset.Inv :=
  (State.inv_iff _).mpr ⟨h.congr rfl rfl (fun _ hr => nomatch hr) (fun _ hx => nomatch hx), Nat.zero_le _⟩

/-- The invariant does not speak of the moves to come or of the draws made. -/
theorem State.Inv.withMovesDraws {s : State} (h : s.Inv) (moves : List HostMove) (draws : Nat) :
    State.Inv { s with moves := moves, draws := draws } :=
  (State.inv_iff _).mpr ⟨h.sound.congr rfl rfl h.sound.response_fits h.sound.trace_admitted, h.status_good⟩

theorem State.Inv.hostWrite {s : State} (h : s.Inv) {a : Nat} (ha : a < 2 ^ s.launch.addrWidth) (b : Byte) :
    (s.hostWrite a b).Inv :=
  (State.inv_iff _).mpr ⟨h.sound.hostWrite ha b, h.status_good⟩

theorem State.resetWhileBusy_inv {op : Instr} {s : State} (hop : s.BusyOnlyWith op) (h : s.Inv) :
    (s.resetWhileBusy (opTick op)).Inv :=
  (runBusy_keeps_inv (s := { s with draws := s.draws + 1 }) op _ hop
    (h.withMovesDraws s.moves (s.draws + 1))).sound.inv_hostReset

theorem State.goOn_inv {op : Instr} {s : State} (hop : s.BusyOnlyWith op) (h : s.Inv) : (s.goOn op).Inv := by
  rcases s.goOn_cases op with ⟨rest, -, he⟩ | he <;> rw [he]
  · exact State.resetWhileBusy_inv hop (h.withMovesDraws rest s.draws)
  · exact runBusy_keeps_inv op _ hop h

theorem State.presentIdle_inv {s t : State} {r : Request} {rest : List HostMove} (hp : s.Presents r rest)
    (hwf : r.wellFormed s.launch.addrWidth = true) (h : s.Inv) (ht : s.presentIdle r rest = .next t) : t.Inv := by
  cases hcmd : decode r.cmd with
  | ok i =>
    rw [s.presentIdle_legal r rest i hcmd, exec_presented i s r rest hp] at ht
    cases ht
    exact runBusy_keeps_inv i _ (s.accept_busyOnlyWith i r rest) (h.sound.inv_accept hcmd hwf rest)
  | error e =>
    rw [s.presentIdle_illegal r rest e hcmd] at ht
    cases ht
    have hsound : State.Sound { s with trace := [], moves := rest } :=
      h.sound.congr rfl rfl h.sound.response_fits (fun _ hx => nomatch hx)
    exact hsound.inv_raise (fun i hi => nomatch hcmd.symm.trans hi) (Nat.zero_le _)

theorem State.presentThenReset_inv {s : State} {r : Request} (rest : List HostMove)
    (hwf : r.wellFormed s.launch.addrWidth = true) (h : s.Inv) : (s.presentThenReset r rest).Inv := by
  cases hcmd : decode r.cmd with
  | ok i =>
    rw [s.presentThenReset_legal r rest i hcmd]
    exact State.resetWhileBusy_inv (s.accept_busyOnlyWith i r rest) (h.sound.inv_accept hcmd hwf rest)
  | error e =>
    rw [s.presentThenReset_illegal r rest e hcmd]
    exact (h.withMovesDraws rest s.draws).sound.inv_hostReset

theorem State.moveIdle_inv {s t : State} {m : HostMove} {rest : List HostMove} (hs : s.status = .idle)
    (hm : s.moves = m :: rest) (hwf : m.wellFormed s.launch.addrWidth = true) (h : s.Inv)
    (ht : s.moveIdle m rest = .next t) : t.Inv := by
  have hrest := h.withMovesDraws rest s.draws
  cases m with
  | request r => exact State.presentIdle_inv ⟨hs, hm⟩ hwf h ht
  | write a b => cases ht; exact hrest.hostWrite (HostMove.wellFormed_write hwf) b
  | reset => cases ht; exact hrest.sound.inv_hostReset
  | resetDuring r => cases ht; exact State.presentThenReset_inv rest hwf h

theorem State.moveFaulted_inv {s : State} {m : HostMove} (rest : List HostMove)
    (hwf : m.wellFormed s.launch.addrWidth = true) (h : s.Inv) : (s.moveFaulted m rest).Inv := by
  have hrest := h.withMovesDraws rest s.draws
  cases m with
  | request r => exact hrest
  | write a b => exact hrest.hostWrite (HostMove.wellFormed_write hwf) b
  | reset => exact hrest.sound.inv_hostReset
  | resetDuring r => exact hrest.sound.inv_hostReset

/-- Settles O4, by the cases of a step: a `Busy` codec goes on, or the host's next move is made. -/
theorem stepKeepsInvariant : Obligations.StepKeepsInvariant := by
  intro s t h ht
  rcases step_next s t ht with ⟨op, r, x, hs, rfl⟩ | ⟨-, -, rfl⟩ | ⟨m, rest, hs, hm, hwf, ht⟩ |
    ⟨f, m, rest, -, -, hwf, rfl⟩
  · refine State.goOn_inv (fun op' r' x' hs' => ?_) h
    cases hs.symm.trans hs'
    rfl
  · exact h
  · exact State.moveIdle_inv hs hm hwf h ht
  · exact State.moveFaulted_inv rest hwf h

end Sys2Proof.Machine
end

section
/-!
PROOFS. What a step may do to memory (10_state.md R22; 20_memory.md R41): only ENCU and the host's own write change it.
-/

namespace Sys2Proof.Machine

/-- One iteration of a decode or of SIZEU stores nothing. -/
theorem opTick_mem (op : Instr) (hop : op ≠ .encu) (r : Request) (t : Transient) (s : State) :
    (opTick op r t s).mem = s.mem := by
  rcases Instr_cases op with hread | rfl | rfl
  · rw [opTick_decode op hread]
    rcases decodeTick_cases op _ _ _ r t s _ rfl with
      ⟨-, hu⟩ | ⟨-, hu⟩ | ⟨-, ⟨-, hu⟩ | ⟨n, v, -, hu⟩ | ⟨-, hu⟩⟩ <;> rw [hu] <;> simp
  · exact absurd rfl hop
  · rw [opTick, sizeuTick]
    split <;> rfl

theorem runBusy_mem (op : Instr) (hop : op ≠ .encu) (n : Nat) (s : State) :
    (runBusy (opTick op) n s).mem = s.mem :=
  runBusy_keeps (opTick op) (fun u => u.mem = s.mem) (fun u _ r t _ hu => (opTick_mem op hop r t u).trans hu) n s rfl

theorem State.resetWhileBusy_mem (op : Instr) (hop : op ≠ .encu) (s : State) :
    (s.resetWhileBusy (opTick op)).mem = s.mem :=
  runBusy_mem op hop _ _

theorem State.goOn_mem (op : Instr) (hop : op ≠ .encu) (s : State) : (s.goOn op).mem = s.mem := by
  rcases s.goOn_cases op with ⟨rest, -, he⟩ | he <;> rw [he]
  · exact State.resetWhileBusy_mem op hop _
  · exact runBusy_mem op hop _ _

/-- A presented request that changes memory is an ENCU. -/
theorem State.presentIdle_mem {s t : State} {r : Request} {rest : List HostMove} (hp : s.Presents r rest)
    (ht : s.presentIdle r rest = .next t) (hmem : t.mem ≠ s.mem) : r.cmd = 0x04#8 := by
  cases hcmd : decode r.cmd with
  | ok i =>
    rw [s.presentIdle_legal r rest i hcmd, exec_presented i s r rest hp] at ht
    cases ht
    obtain rfl : i = .encu := Decidable.byContradiction fun hi => hmem (runBusy_mem i hi _ _)
    exact cmd_of_decode_encu r.cmd hcmd
  | error e =>
    rw [s.presentIdle_illegal r rest e hcmd] at ht
    cases ht
    exact absurd rfl hmem

/-- A request reset during its operation that changes memory is an ENCU. -/
theorem State.presentThenReset_mem {s : State} {r : Request} {rest : List HostMove}
    (hmem : (s.presentThenReset r rest).mem ≠ s.mem) : r.cmd = 0x04#8 := by
  cases hcmd : decode r.cmd with
  | ok i =>
    rw [s.presentThenReset_legal r rest i hcmd] at hmem
    obtain rfl : i = .encu := Decidable.byContradiction fun hi => hmem (State.resetWhileBusy_mem i hi _)
    exact cmd_of_decode_encu r.cmd hcmd
  | error e =>
    rw [s.presentThenReset_illegal r rest e hcmd] at hmem
    exact absurd rfl hmem

/-- Settles O19, by the cases of a step and of the host's next move. -/
theorem onlyEncuAndHostChangeMemory : Obligations.OnlyEncuAndHostChangeMemory := by
  intro s t ht hmem
  rcases step_next s t ht with ⟨op, r, x, hs, rfl⟩ | ⟨-, -, rfl⟩ | ⟨m, rest, hs, hm, -, ht⟩ |
    ⟨f, m, rest, -, hm, -, rfl⟩
  · obtain rfl : op = .encu := Decidable.byContradiction fun hop => hmem (s.goOn_mem op hop)
    exact .inl ⟨r, x, hs⟩
  · exact absurd rfl hmem
  · cases m with
    | request r => exact .inr (.inr ⟨r, rest, State.presentIdle_mem ⟨hs, hm⟩ ht hmem, .inl hm⟩)
    | write a b => exact .inr (.inl ⟨a, b, rest, hm⟩)
    | reset => cases ht; exact absurd rfl hmem
    | resetDuring r => cases ht; exact .inr (.inr ⟨r, rest, State.presentThenReset_mem hmem, .inr hm⟩)
  · cases m with
    | write a b => exact .inr (.inl ⟨a, b, rest, hm⟩)
    | request r => exact absurd rfl hmem
    | reset => exact absurd rfl hmem
    | resetDuring r => exact absurd rfl hmem

end Sys2Proof.Machine
end

section
/-!
PROOFS. The response (10_state.md R24 to R26; 41_decode_checked.md R104, R105): its shape, its cursor and `OK`.
-/

namespace Sys2Proof.Machine

@[simp] theorem readsFrom_length (c n : Nat) : (readsFrom c n).length = n := by simp [readsFrom]

@[simp] theorem writesFrom_length (c : Nat) (f : Nat → Byte) (n : Nat) : (writesFrom c f n).length = n := by
  simp [writesFrom]

/-! ### What each operation responds -/

/-- A decode that is stopped by the limit or by its fifth byte is a checked one. -/
theorem checked_of_pastLimit {checked lim : Bool} {r : Request} {a : Nat} (h : pastLimit checked lim r a = true) :
    checked = true := by
  cases checked with
  | true => rfl
  | false => exact absurd h Bool.false_ne_true

theorem checked_of_badFinalByte {checked : Bool} {b : Byte} (h : badFinalByte checked b = true) : checked = true := by
  cases checked with
  | true => rfl
  | false => exact absurd h Bool.false_ne_true

section
variable {i : Instr} {s t : State} {r : Request} {rest : List HostMove} {resp : Response}

/-- A decode that responds is a checked one with `OK = 0` and the free draws (R105), or gives the placed value and the
advanced cursor (R82, R104). -/
theorem decode_response (hop : readsMemory i = true) (hp : s.Presents r rest) (ht : exec i s = .next t)
    (hr : t.response = some resp) :
    ((decodeForm i).1 = true ∧
        resp = decodeResponse (decodeForm i).1 (decodeForm i).2.2 false (Config.freeValue s.draws)
          (Config.freeCursor s.draws % 2 ^ s.launch.addrWidth)) ∨
      (t.trace = readsFrom r.cursor (seqLength (s.bytesFrom r.cursor)) ∧
        resp = decodeResponse (decodeForm i).1 (decodeForm i).2.2 true
          (placed (decodeForm i).2.2 (s.bytesFrom r.cursor) (seqLength (s.bytesFrom r.cursor)))
          (r.cursor + seqLength (s.bytesFrom r.cursor))) := by
  rw [exec_presented i s r rest hp, opTick_decode i hop] at ht
  rcases decodeRun_cases i (decodeForm i).1 (decodeForm i).2.1 (decodeForm i).2.2 r rest s with
    ⟨k, -, -, hl, he⟩ | ⟨k, -, -, -, -, he⟩ | ⟨-, -, -, he⟩ | ⟨-, -, -, he⟩ | ⟨-, -, hb, he⟩ <;>
    rw [he] at ht <;> cases ht <;> cases hr
  · exact .inl ⟨checked_of_pastLimit hl, rfl⟩
  · exact .inr ⟨rfl, rfl⟩
  · exact .inl ⟨checked_of_badFinalByte hb, rfl⟩

theorem encu_response (hp : s.Presents r rest) (ht : exec .encu s = .next t) (hr : t.response = some resp) :
    t.trace = writesFrom r.cursor (canonicalByte r.value) (sizeByRange r.value) ∧
      resp = .encu (r.cursor + sizeByRange r.value) := by
  rw [exec_presented .encu s r rest hp, opTick] at ht
  rcases encuRun_result r rest s with ⟨k, -, -, -, he⟩ | ⟨-, -, he⟩ | ⟨-, -, he⟩ <;>
    rw [he] at ht <;> cases ht <;> cases hr
  exact ⟨rfl, rfl⟩

theorem sizeu_response (hp : s.Presents r rest) (ht : exec .sizeu s = .next t) (hr : t.response = some resp) :
    resp = .sizeu (BitVec.ofNat 3 (sizeByRange r.value)) := by
  rw [exec_presented .sizeu s r rest hp, opTick, sizeuRun_responds] at ht
  cases ht
  cases hr
  rfl

end

/-- `COUNT` holds the size in its three bits (R24, R122). -/
theorem toNat_count (v : Word) : (BitVec.ofNat 3 (sizeByRange v)).toNat = sizeByRange v := by
  have h5 := sizeByRange_le v
  rw [BitVec.toNat_ofNat, Nat.mod_eq_of_lt (by omega)]

/-- Settles O25, by the response of a decode, of ENCU and of SIZEU. -/
theorem responseHasItsShape : Obligations.ResponseHasItsShape := by
  intro i s t r rest resp hp ht hr
  have hdecode (hop : readsMemory i = true) :
      ∃ ok v c, resp = decodeResponse (decodeForm i).1 (decodeForm i).2.2 ok v c := by
    rcases decode_response hop hp ht hr with ⟨-, he⟩ | ⟨-, he⟩ <;> exact ⟨_, _, _, he⟩
  cases i with
  | decu =>
    obtain ⟨ok, v, c, he⟩ := hdecode rfl
    exact .inl ⟨v, c, rfl, he⟩
  | decs =>
    obtain ⟨ok, v, c, he⟩ := hdecode rfl
    exact .inr (.inl ⟨v, c, rfl, he⟩)
  | decuc lim =>
    obtain ⟨ok, v, c, he⟩ := hdecode rfl
    exact .inr (.inr (.inl ⟨lim, ok, v, c, rfl, he⟩))
  | decsc lim =>
    obtain ⟨ok, v, c, he⟩ := hdecode rfl
    exact .inr (.inr (.inr (.inl ⟨lim, ok, v, c, rfl, he⟩)))
  | encu => exact .inr (.inr (.inr (.inr (.inl ⟨_, rfl, (encu_response hp ht hr).2⟩))))
  | sizeu =>
    refine .inr (.inr (.inr (.inr (.inr ⟨_, rfl, sizeu_response hp ht hr, ?_⟩))))
    rw [toNat_count]
    exact ⟨sizeByRange_pos r.value, sizeByRange_le r.value⟩

/-! ### `CURSOR_OUT` -/

/-- A decode's response lets the host go on from its cursor unless it is a checked one with `OK = 0` (R166). -/
theorem nextCursor_decodeResponse (checked signed ok : Bool) (v : Word) (c : Nat) :
    (decodeResponse checked signed ok v c).nextCursor = if checked && !ok then none else some c := by
  cases checked <;> cases signed <;> cases ok <;> rfl

/-- The fields of a decode's response with `OK = 0`. -/
theorem fields_of_failed {checked signed ok : Bool} {v v' : Word} {c c' : Nat}
    (h : decodeResponse checked signed ok v c = .decuc false v' c' ∨
      decodeResponse checked signed ok v c = .decsc false v' c') : ok = false ∧ v' = v ∧ c' = c := by
  cases checked <;> cases signed <;> rcases h with h | h <;> cases h <;> exact ⟨rfl, rfl, rfl⟩

/-- Settles O26, by the response of a decode, of ENCU and of SIZEU. -/
theorem cursorOutIsExact : Obligations.CursorOutIsExact := by
  intro i s t r rest resp hp ht hr
  rcases Instr_cases i with hop | rfl | rfl
  · rcases decode_response hop hp ht hr with ⟨hchecked, rfl⟩ | ⟨htrace, rfl⟩
    · refine ⟨fun c hc => ?_, fun v c hf => (fields_of_failed hf).2⟩
      rw [nextCursor_decodeResponse, hchecked] at hc
      cases hc
    · refine ⟨fun c hc => ?_, fun v c hf => nomatch (fields_of_failed hf).1⟩
      rw [nextCursor_decodeResponse, Bool.not_true, Bool.and_false] at hc
      cases hc
      rw [htrace, readsFrom_length]
  · obtain ⟨htrace, rfl⟩ := encu_response hp ht hr
    refine ⟨fun c hc => ?_, fun v c hf => by rcases hf with hf | hf <;> cases hf⟩
    cases hc
    rw [htrace, writesFrom_length]
  · obtain rfl := sizeu_response hp ht hr
    exact ⟨fun c hc => (nomatch hc), fun v c hf => by rcases hf with hf | hf <;> cases hf⟩

/-! ### `OK` -/

/-- The fifth-byte check as R103 writes it. -/
theorem badFinalByte_eq_false_iff : ∀ b : Byte, badFinalByte true b = false ↔ b &&& 0xF0#8 = 0#8 := by decide

theorem decodeResponse_ok_ne_failed (signed : Bool) (v v' : Word) (c c' : Nat) :
    some (decodeResponse true signed false v c) ≠ some (decodeResponse true signed true v' c') := by
  cases signed <;> simp [decodeResponse]

/-- A checked decode responds with `OK = 1` exactly where nothing stops it before the end of its sequence, the fifth byte
passes its check and the advanced cursor is representable. -/
theorem decodeRun_ok_iff (op : Instr) (lim signed : Bool) (r : Request) (rest : List HostMove) (s : State) :
    (∃ v c, (runBusy (decodeTick op true lim signed) Config.maxBytes (s.accept op r rest)).response =
        some (decodeResponse true signed true v c)) ↔
      ReachesByte true lim r s (seqLength (s.bytesFrom r.cursor)) ∧
        (seqLength (s.bytesFrom r.cursor) = 5 → badFinalByte true (s.bytesFrom r.cursor 4) = false) ∧
        r.cursor + seqLength (s.bytesFrom r.cursor) < 2 ^ s.launch.addrWidth := by
  rcases decodeRun_cases op true lim signed r rest s with
    ⟨k, hk, -, hl, he⟩ | ⟨k, hk, -, -, hno, he⟩ | ⟨hreach, hok, hfit, he⟩ | ⟨-, -, hover, he⟩ | ⟨h5, -, hb, he⟩ <;>
    rw [he]
  · refine iff_of_false (fun ⟨_, _, h⟩ => decodeResponse_ok_ne_failed signed _ _ _ _ h) fun ⟨hreach, _, _⟩ => ?_
    exact absurd ((hreach k hk).1.symm.trans hl) Bool.false_ne_true
  · refine iff_of_false (fun ⟨_, _, h⟩ => nomatch h) fun ⟨hreach, _, _⟩ => ?_
    exact absurd (hno.symm.trans (hreach k hk).2) Bool.false_ne_true
  · exact iff_of_true ⟨_, _, rfl⟩ ⟨hreach, hok, hfit⟩
  · exact iff_of_false (fun ⟨_, _, h⟩ => nomatch h) fun ⟨_, _, hfit⟩ => absurd hfit (Nat.not_lt.mpr hover)
  · refine iff_of_false (fun ⟨_, _, h⟩ => decodeResponse_ok_ne_failed signed _ _ _ _ h) fun ⟨_, hok, _⟩ => ?_
    exact absurd ((hok h5).symm.trans hb) Bool.false_ne_true

/-- A checked decode with a limit reaches the end of its sequence where that is readable and not beyond the limit. -/
theorem reachesByte_checked_end (lim : Bool) (r : Request) (s : State) :
    ReachesByte true lim r s (seqLength (s.bytesFrom r.cursor)) ↔
      s.ReadableRun r.cursor (seqLength (s.bytesFrom r.cursor)) ∧
        (lim = true → r.cursor + seqLength (s.bytesFrom r.cursor) ≤ r.limit) := by
  have hpos := seqLength_pos (s.bytesFrom r.cursor)
  rw [reachesByte_checked]
  refine and_congr_right fun _ => imp_congr_right fun _ => ⟨fun h => ?_, fun h j hj => by omega⟩
  have hlast := h (seqLength (s.bytesFrom r.cursor) - 1) (by omega)
  omega

/-- Settles O27, by the condition for `OK = 1` of the loop that both checked decodes run. -/
theorem okIffWellFormedAndInBounds : Obligations.OkIffWellFormedAndInBounds := by
  intro lim signed s t r rest hp ht
  have hrun := decodeRun_ok_iff (if signed then .decsc lim else .decuc lim) lim signed r rest s
  have htick : opTick (if signed then .decsc lim else .decuc lim) =
      decodeTick (if signed then .decsc lim else .decuc lim) true lim signed := by cases signed <;> rfl
  have hform (v : Word) (c : Nat) : (if signed then Response.decsc true v c else .decuc true v c) =
      decodeResponse true signed true v c := by cases signed <;> rfl
  rw [exec_presented _ s r rest hp, htick] at ht
  cases ht
  simp only [hform, hrun, reachesByte_checked_end, badFinalByte_eq_false_iff]
  tauto

end Sys2Proof.Machine
end

section
/-!
PROOFS. The request (10_state.md R23, R28, R29) and the host's moves (R20, R31; 20_memory.md R53): fields that are not read,
the step that runs a request, the codec that has accepted one, the host's own write, and reset.
-/

namespace Sys2Proof.Machine

/-! ### Fields that are not read -/

/-- The loop of a decode reads `CMD` and `CURSOR` of the request, and `LIMIT` through the limit check alone. -/
theorem decodeRun_unread (op : Instr) (checked lim signed : Bool) (r r' : Request) (rest : List HostMove) (s : State)
    (hcmd : r'.cmd = r.cmd) (hcursor : r'.cursor = r.cursor)
    (hlimit : ∀ a, pastLimit checked lim r' a = pastLimit checked lim r a) :
    runBusy (decodeTick op checked lim signed) Config.maxBytes (s.accept op r' rest) =
      runBusy (decodeTick op checked lim signed) Config.maxBytes (s.accept op r rest) := by
  have hreach (k : Nat) : ReachesByte checked lim r s k ↔ ReachesByte checked lim r' s k := by
    simp only [ReachesByte, hlimit, hcursor]
  rcases decodeRun_cases op checked lim signed r rest s with
    ⟨k, hk, hre, hl, he⟩ | ⟨k, hk, hre, hl, hno, he⟩ | ⟨hre, hok, hfit, he⟩ | ⟨hre, hok, hover, he⟩ |
      ⟨h5, hre, hb, he⟩ <;>
    rw [he] <;> rw [hreach] at hre <;> rw [← hcursor] at *
  · exact decodeRun_pastLimit op checked lim signed r' rest s k hk hre ((hlimit _).trans hl)
  · rw [← hcmd]
    exact decodeRun_unreadable op checked lim signed r' rest s k hk hre ((hlimit _).trans hl) hno
  · exact decodeRun_responds op checked lim signed r' rest s hre hok hfit
  · rw [← hcmd]
    exact decodeRun_overflows op checked lim signed r' rest s hre hok hover
  · exact decodeRun_badFinalByte op checked lim signed r' rest s h5 hre hb

/-- The loop of ENCU does not read `LIMIT`. -/
theorem encuRun_unread (r r' : Request) (rest : List HostMove) (s : State) (hcmd : r'.cmd = r.cmd)
    (hcursor : r'.cursor = r.cursor) (hvalue : r'.value = r.value) :
    runBusy encuTick Config.maxBytes (s.accept .encu r' rest) =
      runBusy encuTick Config.maxBytes (s.accept .encu r rest) := by
  rcases encuRun_result r rest s with ⟨k, hk, hw, hno, he⟩ | ⟨hw, hfit, he⟩ | ⟨hw, hover, he⟩ <;>
    rw [he] <;> rw [← hcursor, ← hvalue] at *
  · rw [← hcmd]
    exact encuRun_unwritable r' rest s k hk hw hno
  · exact encuRun_responds r' rest s hw hfit
  · rw [← hcmd]
    exact encuRun_overflows r' rest s hw hover

/-- The limit check of a decode reads `LIMIT` only where `LIM = 1` (R62, R102). -/
theorem pastLimit_unread (i : Instr) (r r' : Request) (h : i = .decuc true ∨ i = .decsc true → r'.limit = r.limit)
    (a : Nat) : pastLimit (decodeForm i).1 (decodeForm i).2.1 r' a = pastLimit (decodeForm i).1 (decodeForm i).2.1 r a := by
  cases i with
  | decu => rfl
  | decs => rfl
  | encu => rfl
  | sizeu => rfl
  | decuc lim =>
    cases lim with
    | false => rfl
    | true => simp only [pastLimit, h (.inl rfl)]
  | decsc lim =>
    cases lim with
    | false => rfl
    | true => simp only [pastLimit, h (.inr rfl)]

/-- Settles O37, by the fields that the loop of each operation reads. -/
theorem unreadFieldsAreIgnored : Obligations.UnreadFieldsAreIgnored := by
  intro i s r r' rest hp hcmd hcursor hlimit hvalue
  rw [exec_presented i s r rest hp, exec_presented i { s with moves := .request r' :: rest } r' rest ⟨hp.1, rfl⟩]
  congr 1
  change runBusy _ _ (s.accept i r' rest) = _
  rcases Instr_cases i with hop | rfl | rfl
  · have hne : i ≠ .sizeu := by rintro rfl; exact absurd hop (by decide)
    rw [opTick_decode i hop]
    exact decodeRun_unread i _ _ _ r r' rest s hcmd (hcursor hne) (pastLimit_unread i r r' hlimit)
  · exact encuRun_unread r r' rest s hcmd (hcursor (by decide)) (hvalue (.inl rfl))
  · rw [opTick, sizeuRun_responds, sizeuRun_responds, hvalue (.inr rfl)]

/-! ### Reset -/

/-- Settles O1, from the reset values. -/
theorem resetIsIdle : Obligations.ResetIsIdle := ⟨rfl, rfl, rfl, rfl, rfl, rfl, rfl⟩

theorem State.reset_sound : State.reset.Sound where
  launch_wf := rfl
  mem_wf := rfl
  mem_lt _ hc := nomatch hc
  response_fits _ hr := nomatch hr
  trace_admitted _ hx := nomatch hx

/-- Settles O2: reset lists nothing and records nothing. -/
theorem resetMeetsInvariant : Obligations.ResetMeetsInvariant :=
  (State.inv_iff State.reset).mpr ⟨State.reset_sound, Nat.zero_le _⟩

/-! ### The step that runs a request -/

/-- Settles O8: the request is the host's next move, and it is well-formed and legal. -/
theorem stepRunsPresentedRequest : Obligations.StepRunsPresentedRequest := by
  intro s r rest i ⟨hs, hm⟩ hwf hcmd
  rw [step_idle s (.request r) rest hs hm hwf]
  exact s.presentIdle_legal r rest i hcmd

/-- Settles O10: both run the operation's loop from the accepted request. -/
theorem busyGoesOnToTheSameEnd : Obligations.BusyGoesOnToTheSameEnd := by
  intro s r rest i hp hrest
  rw [exec_presented i s r rest hp, step_busy (s.accept i r rest) i r (Transient.init r) rfl, State.goOn_run _ _ hrest]

/-! ### The host's own write -/

/-- The host's write is made at an `Idle` and at a `Faulted` codec alike. -/
theorem step_hostWrite (s : State) (a : Nat) (b : Byte) (rest : List HostMove)
    (hs : ∀ op r x, s.status ≠ .busy op r x) (hm : s.moves = .write a b :: rest) (ha : a < 2 ^ s.launch.addrWidth) :
    step s = .next (State.hostWrite a b { s with moves := rest }) := by
  have hwf : (HostMove.write a b).wellFormed s.launch.addrWidth = true := decide_eq_true ha
  rcases s.idle_or_faulted hs with hst | ⟨f, hst⟩
  · rw [step_idle s _ rest hst hm hwf]; rfl
  · rw [step_faulted s f _ rest hst hm hwf]; rfl

/-- Settles O34, by the laws of a write to memory. -/
theorem hostWriteChangesOneByte : Obligations.HostWriteChangesOneByte := by
  intro s a b rest hmem hs hm ha
  exact ⟨_, step_hostWrite s a b rest hs hm ha, Memory.read_write_same s.mem a b hmem,
    fun x hx => Memory.read_write_other s.mem a x b hx, rfl⟩

end Sys2Proof.Machine
end

section
/-!
PROOFS. Memory and the accesses to it (20_memory.md): canonical memories (R40, R47), which bytes an operation touches and
in which order (R41, R42, R48, R49), what it leaves unchanged, and the word of the opcode table that is run next (R55).
-/

namespace Sys2Proof.Machine

/-! ### Canonical memories -/

theorem Memory.risingFrom_cons (low k : Nat) (v : Byte) (m : List Host.Cell) :
    Memory.risingFrom low ((k, v) :: m) = true ↔
      low ≤ k ∧ v ≠ Memory.blank ∧ Memory.risingFrom (k + 1) m = true := by
  simp only [Memory.risingFrom, Bool.and_eq_true, decide_eq_true_eq, and_assoc]

@[simp] theorem Memory.read_cons_same (k : Nat) (v : Byte) (m : List Host.Cell) : Memory.read ((k, v) :: m) k = v := by
  rw [Memory.read, if_pos rfl]

theorem Memory.read_cons_other {k a : Nat} (v : Byte) (m : List Host.Cell) (h : k ≠ a) :
    Memory.read ((k, v) :: m) a = Memory.read m a := by
  rw [Memory.read, if_neg h]

/-- An address whose byte is not blank is not below the first one that a canonical memory lists. -/
theorem Memory.head_le_of_read_ne_blank {low k a : Nat} {v : Byte} {m : List Host.Cell}
    (h : Memory.risingFrom low ((k, v) :: m) = true) (ha : Memory.read ((k, v) :: m) a ≠ Memory.blank) : k ≤ a := by
  obtain ⟨-, hv, hm⟩ := (Memory.risingFrom_cons low k v m).mp h
  refine Nat.le_of_not_lt fun hlt => ha (Memory.read_below _ k a ?_ hlt)
  exact (Memory.risingFrom_cons k k v m).mpr ⟨Nat.le_refl k, hv, hm⟩

/-- Canonical memories with the same bytes list the same cells: they agree on the first address that is not blank, and
behind it on the rest. -/
theorem Memory.eq_of_read_eq_from (m m' : List Host.Cell) (low low' : Nat) (h : Memory.risingFrom low m = true)
    (h' : Memory.risingFrom low' m' = true) (heq : ∀ a, Memory.read m a = Memory.read m' a) : m = m' := by
  induction m generalizing m' low low' with
  | nil =>
    cases m' with
    | nil => rfl
    | cons c' rest' =>
      obtain ⟨k', v'⟩ := c'
      obtain ⟨-, hv', -⟩ := (Memory.risingFrom_cons _ _ _ _).mp h'
      exact absurd ((heq k').trans (Memory.read_cons_same k' v' rest')).symm hv'
  | cons c rest ih =>
    obtain ⟨k, v⟩ := c
    obtain ⟨-, hv, hrest⟩ := (Memory.risingFrom_cons _ _ _ _).mp h
    have hk : Memory.read m' k = v := (heq k).symm.trans (Memory.read_cons_same k v rest)
    cases m' with
    | nil => exact absurd hk.symm hv
    | cons c' rest' =>
      obtain ⟨k', v'⟩ := c'
      obtain ⟨-, hv', hrest'⟩ := (Memory.risingFrom_cons _ _ _ _).mp h'
      have hk' : Memory.read ((k, v) :: rest) k' = v' := (heq k').trans (Memory.read_cons_same k' v' rest')
      obtain rfl : k = k' := Nat.le_antisymm (Memory.head_le_of_read_ne_blank h (hk'.symm ▸ hv'))
        (Memory.head_le_of_read_ne_blank h' (hk.symm ▸ hv))
      obtain rfl : v' = v := (Memory.read_cons_same k v' rest').symm.trans hk
      congr 1
      refine ih rest' _ _ hrest hrest' fun a => ?_
      by_cases ha : k = a
      · subst ha
        rw [Memory.read_below rest _ k hrest (Nat.lt_succ_self k),
          Memory.read_below rest' _ k hrest' (Nat.lt_succ_self k)]
      · rw [← Memory.read_cons_other v' rest ha, ← Memory.read_cons_other v' rest' ha, heq a]

/-- Settles O36, by induction on the first memory. -/
theorem canonicalMemoryIsItsBytes : Obligations.CanonicalMemoryIsItsBytes :=
  fun m m' h h' heq => Memory.eq_of_read_eq_from m m' 0 0 h h' heq

/-! ### The accesses of an operation, and what it leaves -/

theorem readsFrom_getElem? {c n k : Nat} {x : Access} (h : (readsFrom c n)[k]? = some x) :
    k < n ∧ x = .read (c + k) := by
  obtain ⟨hk, rfl⟩ := List.getElem?_eq_some_iff.mp h
  exact ⟨by simpa using hk, by simp [readsFrom]⟩

theorem writesFrom_getElem? {c n k : Nat} {f : Nat → Byte} {x : Access} (h : (writesFrom c f n)[k]? = some x) :
    k < n ∧ x = .write (c + k) (f k) := by
  obtain ⟨hk, rfl⟩ := List.getElem?_eq_some_iff.mp h
  exact ⟨by simpa using hk, by simp [writesFrom]⟩

theorem allowsAccess_read (i : Instr) (a : Nat) : allowsAccess i (.read a) = readsMemory i := by
  cases i <;> rfl

theorem exec_sizeu_presented {s : State} {r : Request} {rest : List HostMove} (hp : s.Presents r rest) :
    exec .sizeu s = .next (s.responded rest [] (.sizeu (BitVec.ofNat 3 (sizeByRange r.value)))) := by
  rw [exec_presented .sizeu s r rest hp, opTick, sizeuRun_responds]

section
variable {i : Instr} {s t : State} {r : Request} {rest : List HostMove}

/-- The bytes a decode reads: a first part of its sequence, each byte of it admitted by the limit and readable. -/
theorem decode_reads (hop : readsMemory i = true) (hp : s.Presents r rest) (ht : exec i s = .next t) :
    ∃ n, n ≤ seqLength (s.bytesFrom r.cursor) ∧ ReachesByte (decodeForm i).1 (decodeForm i).2.1 r s n ∧
      t.trace = readsFrom r.cursor n := by
  rw [exec_presented i s r rest hp, opTick_decode i hop] at ht
  rcases decodeRun_cases i (decodeForm i).1 (decodeForm i).2.1 (decodeForm i).2.2 r rest s with
    ⟨k, hk, hreach, -, he⟩ | ⟨k, hk, hreach, -, -, he⟩ | ⟨hreach, -, -, he⟩ | ⟨hreach, -, -, he⟩ |
      ⟨h5, hreach, -, he⟩ <;>
    rw [he] at ht <;> cases ht
  · exact ⟨k, hk.le, hreach, rfl⟩
  · exact ⟨k, hk.le, hreach, rfl⟩
  · exact ⟨_, le_rfl, hreach, rfl⟩
  · exact ⟨_, le_rfl, hreach, rfl⟩
  · exact ⟨5, h5.ge, hreach, rfl⟩

/-- The frame of a decode (R41): memory and the launch parameters stay, just the request leaves the host's moves, and
free values are drawn only for a response with `OK = 0` (R105). -/
theorem decode_frame (hop : readsMemory i = true) (hp : s.Presents r rest) (ht : exec i s = .next t) :
    t.mem = s.mem ∧ t.launch = s.launch ∧ t.moves = rest ∧
      (t.draws = s.draws ∨ ∃ v c, t.response = some (decodeResponse true (decodeForm i).2.2 false v c)) := by
  rw [exec_presented i s r rest hp, opTick_decode i hop] at ht
  rcases decodeRun_cases i (decodeForm i).1 (decodeForm i).2.1 (decodeForm i).2.2 r rest s with
    ⟨k, -, -, hl, he⟩ | ⟨k, -, -, -, -, he⟩ | ⟨-, -, -, he⟩ | ⟨-, -, -, he⟩ | ⟨-, -, hb, he⟩ <;>
    rw [he] at ht <;> cases ht <;> refine ⟨rfl, rfl, rfl, ?_⟩
  · exact .inr ⟨_, _, by rw [← checked_of_pastLimit hl]; rfl⟩
  · exact .inl rfl
  · exact .inl rfl
  · exact .inl rfl
  · exact .inr ⟨_, _, by rw [← checked_of_badFinalByte hb]; rfl⟩

/-- However an ENCU ends, it has written the first bytes of the canonical form, each at a writable address, and changed
nothing else but status and response (R49). -/
theorem encu_writes (hp : s.Presents r rest) (ht : exec .encu s = .next t) :
    ∃ n, n ≤ sizeByRange r.value ∧ s.WritableRun r.cursor n ∧
      t.trace = writesFrom r.cursor (canonicalByte r.value) n ∧
      t.mem = Memory.writeRun s.mem r.cursor (canonicalByte r.value) n ∧
      t.launch = s.launch ∧ t.moves = rest ∧ t.draws = s.draws := by
  rw [exec_presented .encu s r rest hp, opTick] at ht
  rcases encuRun_result r rest s with ⟨k, hk, hw, -, he⟩ | ⟨hw, -, he⟩ | ⟨hw, -, he⟩ <;> rw [he] at ht <;> cases ht
  · exact ⟨k, hk.le, hw, rfl, rfl, rfl, rfl, rfl⟩
  · exact ⟨_, le_rfl, hw, rfl, rfl, rfl, rfl, rfl⟩
  · exact ⟨_, le_rfl, hw, rfl, rfl, rfl, rfl, rfl⟩

/-- An ENCU that ends `Idle` has written all its bytes and responded. -/
theorem encu_idle (hp : s.Presents r rest) (ht : exec .encu s = .next t) (hidle : t.status = .idle) :
    t = (s.stored r.cursor (canonicalByte r.value) (sizeByRange r.value)).responded rest
      (writesFrom r.cursor (canonicalByte r.value) (sizeByRange r.value)) (.encu (r.cursor + sizeByRange r.value)) := by
  rw [exec_presented .encu s r rest hp, opTick] at ht
  rcases encuRun_result r rest s with ⟨k, -, -, -, he⟩ | ⟨-, -, he⟩ | ⟨-, -, he⟩ <;> rw [he] at ht <;> cases ht
  · cases hidle
  · rfl
  · cases hidle

end

/-! ### The accesses -/

/-- Settles O20, by the bytes that a decode reads and that ENCU writes. -/
theorem accessesAscendAtMostFive : Obligations.AccessesAscendAtMostFive := by
  intro i s t r rest hp ht
  rcases Instr_cases i with hop | rfl | rfl
  · obtain ⟨n, hn, hreach, htrace⟩ := decode_reads hop hp ht
    have h5 := seqLength_le (s.bytesFrom r.cursor)
    rw [htrace, readsFrom_length]
    refine ⟨by omega, fun k x hx => ?_⟩
    obtain ⟨hk, rfl⟩ := readsFrom_getElem? hx
    exact ⟨rfl, (allowsAccess_read i _).trans hop, (hreach k hk).2⟩
  · obtain ⟨n, hn, hw, htrace, -⟩ := encu_writes hp ht
    have h5 := sizeByRange_le r.value
    rw [htrace, writesFrom_length]
    refine ⟨by omega, fun k x hx => ?_⟩
    obtain ⟨hk, rfl⟩ := writesFrom_getElem? hx
    exact ⟨rfl, rfl, hw k hk⟩
  · rw [exec_sizeu_presented hp] at ht
    cases ht
    exact ⟨Nat.zero_le 5, fun k x hx => nomatch hx⟩

/-- Settles O21: what a decode reads is a first part of its sequence, and each byte of it passed the limit check. -/
theorem decodeReadsNoFurtherThanTheSequence : Obligations.DecodeReadsNoFurtherThanTheSequence := by
  intro i s t r rest hop hp ht
  obtain ⟨n, hn, hreach, htrace⟩ := decode_reads hop hp ht
  have h5 := seqLength_le (s.bytesFrom r.cursor)
  refine ⟨n, htrace, fun k hk => ⟨by omega, continues_of_lt_seqLength _ k (by omega)⟩, fun hi k hk => ?_⟩
  have hlimited : ReachesByte true true r s n := by rcases hi with rfl | rfl <;> exact hreach
  exact ((reachesByte_checked true r s n).mp hlimited).2 rfl k hk

/-- Settles O22, by the one end of an ENCU that is `Idle` and the laws of a run of writes. -/
theorem encuWritesExactlyItsBytes : Obligations.EncuWritesExactlyItsBytes := by
  intro s t r rest hwf hp ht hidle
  obtain rfl := encu_idle hp ht hidle
  exact ⟨rfl, fun k hk => Memory.read_writeRun_inside s.mem r.cursor _ k _ hwf hk,
    fun a ha => Memory.read_writeRun_outside s.mem r.cursor _ a _ ha, exec_sizeu_presented hp⟩

/-! ### Frames -/

/-- Settles O17, by the frame of a decode and the one end of SIZEU. -/
theorem readersLeaveMemory : Obligations.ReadersLeaveMemory := by
  intro i s t r rest hi hp ht
  rcases Instr_cases i with hop | rfl | rfl
  · obtain ⟨hmem, hlaunch, hmoves, hdraws⟩ := decode_frame hop hp ht
    refine ⟨hmem, State.byteAt_congr s t hmem, hlaunch, hmoves, hdraws.imp_right fun ⟨v, c, hr⟩ => ⟨v, c, ?_⟩⟩
    cases hsigned : (decodeForm i).2.2 <;> rw [hsigned] at hr
    · exact .inl hr
    · exact .inr hr
  · exact absurd rfl hi
  · rw [exec_sizeu_presented hp] at ht
    cases ht
    exact ⟨rfl, fun _ => rfl, rfl, rfl, .inl rfl⟩

/-- Settles O18: an ENCU stores a first part of its bytes, and a run of writes leaves every address outside it. -/
theorem encuLeavesOtherBytes : Obligations.EncuLeavesOtherBytes := by
  intro s t r rest hp ht
  obtain ⟨n, hn, -, -, hmem, hlaunch, hmoves, hdraws⟩ := encu_writes hp ht
  refine ⟨fun a ha => ?_, hlaunch, hmoves, hdraws⟩
  rw [State.byteAt, hmem, Memory.read_writeRun_outside _ _ _ _ _ (by omega)]
  rfl

/-! ### A word of the opcode table -/

/-- A word that the table's decoder reads as an operation is that operation's command byte (R60). -/
theorem decode_of_decodeTableWord {nbits w : Nat} {i : Instr} (h : decodeTableWord nbits w = some i) :
    decode (BitVec.ofNat 8 (w % 2 ^ nbits)) = .ok i := by
  unfold decodeTableWord at h
  split at h
  · split at h
    · rename_i hcmd
      cases h
      exact hcmd
    · cases h
  · cases h

/-- Settles O9: the command is presented in a well-formed request, so the next step runs it. -/
theorem tableWordRunsNext : Obligations.TableWordRunsNext := by
  intro s w i h
  refine stepRunsPresentedRequest (s.withFetchWord 8 w) _ s.moves i ⟨rfl, rfl⟩ ?_ (decode_of_decodeTableWord h)
  have hpos : 0 < 2 ^ s.launch.addrWidth := Nat.two_pow_pos _
  exact Bool.and_eq_true_iff.mpr ⟨decide_eq_true hpos, decide_eq_true hpos⟩

end Sys2Proof.Machine
end

section
/-!
PROOFS. The encoding (30_encoding.md): the command byte, its table and its illegal values (R60, R61, R63), and ENCU's form
of a value, canonical and the one minimal sequence that DECU reads as it (R66 to R71; 42_encode.md R123).
-/

namespace Sys2Proof.Machine

/-! ### The command byte -/

/-- A byte whose reserved field is clear is made of its `LIM` and its `OP` (R60). -/
theorem cmdOf_fields : ∀ cmd : Byte, cmdReserved cmd = 0#4 → cmdOf (cmdLim cmd) (cmdOp cmd) = cmd := by decide

theorem unlimited_eq_ok {lim : Bool} {i j : Instr} (h : unlimited lim i = .ok j) : lim = false ∧ i = j := by
  cases lim with
  | true => cases h
  | false => cases h; exact ⟨rfl, rfl⟩

theorem decode_encode (i : Instr) : decode (encode i) = .ok i := by
  cases i with
  | decuc lim | decsc lim => cases lim <;> rfl
  | decu | decs | encu | sizeu => rfl

/-- The fields of a legal command byte are those of its operation's row in R61's table. -/
theorem encode_of_decode {cmd : Byte} {i : Instr} (h : decode cmd = .ok i) : encode i = cmd := by
  unfold decode at h
  split at h
  · cases h
  · rename_i hres
    have hfields (op : BitVec 3) (hop : (cmdOp cmd).toNat = op.toNat) : cmdOf (cmdLim cmd) op = cmd := by
      rw [← BitVec.eq_of_toNat_eq hop, cmdOf_fields cmd (not_not.mp hres)]
    have hunlimited (op : BitVec 3) (j : Instr) (hop : (cmdOp cmd).toNat = op.toNat)
        (hj : unlimited (cmdLim cmd) j = .ok i) (hrow : encode j = cmdOf false op) : encode i = cmd := by
      obtain ⟨hlim, rfl⟩ := unlimited_eq_ok hj
      rw [hrow, ← hlim, hfields op hop]
    split at h <;> rename_i hop
    · exact hunlimited 0#3 .decu hop h rfl
    · exact hunlimited 1#3 .decs hop h rfl
    · cases h
      exact hfields 2#3 hop
    · cases h
      exact hfields 3#3 hop
    · exact hunlimited 4#3 .encu hop h rfl
    · exact hunlimited 5#3 .sizeu hop h rfl
    · cases h

/-- Settles O6: each operation's byte decodes to it, and the fields of a legal byte are those of its operation. -/
theorem decodeEncodeAgree : Obligations.DecodeEncodeAgree :=
  ⟨decode_encode, fun _ _ => encode_of_decode⟩

/-- Settles O5: a legal byte is the one its operation encodes to, and the eight bytes of the table decode. -/
theorem commandTable : Obligations.CommandTable := by
  intro cmd i
  constructor
  · intro h
    obtain rfl := encode_of_decode h
    cases i with
    | decuc lim | decsc lim => cases lim <;> decide
    | decu | decs | encu | sizeu => decide
  · rintro (⟨rfl, rfl⟩ | ⟨rfl, rfl⟩ | ⟨rfl, rfl⟩ | ⟨rfl, rfl⟩ | ⟨rfl, rfl⟩ | ⟨rfl, rfl⟩ | ⟨rfl, rfl⟩ | ⟨rfl, rfl⟩) <;> rfl

/-- The fields of a legal command byte lie in none of R63's three groups. -/
theorem fields_of_decode {cmd : Byte} {i : Instr} (h : decode cmd = .ok i) :
    cmd.toNat / 16 = 0 ∧ cmd.toNat % 8 < 6 ∧
      (cmd.toNat / 8 % 2 = 1 → cmd.toNat % 8 = 2 ∨ cmd.toNat % 8 = 3) := by
  rcases (commandTable cmd i).mp h with
    ⟨rfl, -⟩ | ⟨rfl, -⟩ | ⟨rfl, -⟩ | ⟨rfl, -⟩ | ⟨rfl, -⟩ | ⟨rfl, -⟩ | ⟨rfl, -⟩ | ⟨rfl, -⟩ <;> decide

/-- A presented request with an illegal command is stopped before any access (R63, R142). -/
theorem step_illegal {s : State} {r : Request} {rest : List HostMove} {e : DecodeReject} (hp : s.Presents r rest)
    (hwf : r.wellFormed s.launch.addrWidth = true) (hcmd : decode r.cmd = .error e) :
    step s = .next (s.stopped rest [] (.illegalCommand r.cmd)) := by
  obtain ⟨hs, hm⟩ := hp
  rw [step_idle s (.request r) rest hs hm hwf, State.moveIdle, s.presentIdle_illegal r rest e hcmd]
  rfl

/-- A word of the opcode table with a reserved bit set is no command (R63). -/
theorem decodeTableWord_reserved {w : Nat} (h16 : 16 ≤ w) (h256 : w < 256) : (decodeTableWord 8 w).isNone = true := by
  cases hw : decodeTableWord 8 w with
  | none => rfl
  | some i =>
    obtain ⟨hres, -⟩ := fields_of_decode (decode_of_decodeTableWord hw)
    rw [BitVec.toNat_ofNat] at hres
    omega

/-- The illegal bytes: 8 of the 16 with clear reserved bits, and the 240 others (R63). -/
theorem length_filter_illegal : ((List.range 256).filter fun w => (decodeTableWord 8 w).isNone).length = 248 := by
  have hlow : ((List.range 16).filter fun w => (decodeTableWord 8 w).isNone).length = 8 := by decide
  have hhigh : (((List.range 240).map (16 + ·)).filter fun w => (decodeTableWord 8 w).isNone) =
      (List.range 240).map (16 + ·) := by
    refine List.filter_eq_self.mpr fun w hw => ?_
    obtain ⟨k, hk, rfl⟩ := List.mem_map.mp hw
    have h240 := List.mem_range.mp hk
    exact decodeTableWord_reserved (by omega) (by omega)
  rw [show 256 = 16 + 240 from rfl, List.range_add, List.filter_append, List.length_append, hlow, hhigh,
    List.length_map, List.length_range]

/-- Settles O7: a byte in one of the three groups decodes to no operation. -/
theorem illegalCommandFaults : Obligations.IllegalCommandFaults := by
  refine ⟨fun s r rest hp hwf hgroup => ?_, length_filter_illegal⟩
  cases hcmd : decode r.cmd with
  | error e => exact step_illegal hp hwf hcmd
  | ok i =>
    obtain ⟨hres, hop, hlim⟩ := fields_of_decode hcmd
    omega

/-! ### The size of a value and of a sequence -/

/-- R122's table as one bound: `k + 1` groups hold the values below `2^(7*(k+1))`. -/
theorem sizeByRange_le_iff (v : Word) (k : Nat) (hk : k ≤ 4) :
    sizeByRange v ≤ k + 1 ↔ v.toNat < 2 ^ (7 * (k + 1)) := by
  rw [← shifted_eq_zero_iff v k hk, shifted_succ, ← BitVec.toNat_inj, toNat_shifted]
  exact Nat.div_eq_zero_iff_lt (Nat.two_pow_pos _)

/-- The last group of a value other than 0 is not 0. -/
theorem two_pow_le_of_sizeByRange {v : Word} {k : Nat} (hv : v ≠ 0#32) (hk : sizeByRange v = k + 1) :
    2 ^ (7 * k) ≤ v.toNat := by
  have h5 := sizeByRange_le v
  cases k with
  | zero => exact Nat.pos_of_ne_zero fun h => hv (BitVec.eq_of_toNat_eq h)
  | succ k =>
    have hle := sizeByRange_le_iff v k (by omega)
    omega

/-- A sequence's length is read off its continuation bits (R67, R68). -/
theorem seqLength_eq {f : Nat → Byte} {k : Nat} (hk : k ≤ 4) (hmore : ∀ j, j < k → continues (f j) = true)
    (hlast : continues (f k) = false) : seqLength f = k + 1 := by
  have hpos := seqLength_pos f
  rcases Nat.lt_trichotomy (seqLength f) (k + 1) with h | h | h
  · have hstop := not_continues_last f (seqLength f - 1) (by omega) (by omega)
    exact absurd (hstop.symm.trans (hmore _ (by omega))) Bool.false_ne_true
  · exact h
  · have hgo := continues_of_lt_seqLength f k (by omega)
    exact absurd (hlast.symm.trans hgo) Bool.false_ne_true

/-- The continuation bits of a sequence whose fifth byte, if it has one, does not continue. -/
theorem continues_eq_of_lt_seqLength {f : Nat → Byte} {k : Nat} (hk : k < seqLength f)
    (hfifth : seqLength f = 5 → continues (f 4) = false) : continues (f k) = decide (k + 1 < seqLength f) := by
  have h5 := seqLength_le f
  by_cases hmore : k + 1 < seqLength f
  · rw [continues_of_lt_seqLength f k hmore, decide_eq_true hmore]
  · rw [decide_eq_false hmore]
    by_cases h4 : k < 4
    · exact not_continues_last f k (by omega) h4
    · obtain rfl : k = 4 := by omega
      exact hfifth (by omega)

/-! ### The bytes of ENCU's form -/

/-- A byte is its continuation bit above its group (R66). -/
theorem ofBool_continues_append_payload : ∀ b : Byte, BitVec.ofBool (continues b) ++ payload b = b := by decide

@[simp] theorem continues_canonicalByte (v : Word) (k : Nat) :
    continues (canonicalByte v k) = decide (k + 1 < sizeByRange v) := by
  rw [continues, canonicalByte, BitVec.getLsbD_append]
  simp

/-- The last byte of ENCU's form is the value's last group. -/
theorem toNat_canonicalByte_last {v : Word} {k : Nat} (hk : sizeByRange v = k + 1) :
    (canonicalByte v k).toNat = v.toNat / 2 ^ (7 * k) := by
  have h5 := sizeByRange_le v
  have hlt : v.toNat < 2 ^ (7 * k) * 2 ^ 7 := by
    rw [← Nat.pow_add]
    exact (sizeByRange_le_iff v k (by omega)).mp hk.le
  have hgroup := Nat.div_lt_of_lt_mul hlt
  rw [← lastByte_shifted v k hk, lastByte, BitVec.extractLsb'_toNat, toNat_shifted, Nat.shiftRight_zero,
    Nat.mod_eq_of_lt (by omega)]

/-- The last byte of ENCU's form is 0 for the value 0 only (R71). -/
theorem toNat_canonicalByte_last_pos {v : Word} {k : Nat} (hv : v ≠ 0#32) (hk : sizeByRange v = k + 1) :
    0 < (canonicalByte v k).toNat := by
  rw [toNat_canonicalByte_last hk]
  exact Nat.div_pos (two_pow_le_of_sizeByRange hv hk) (Nat.two_pow_pos _)

/-- The bytes an ENCU that responded leaves are those of its form (R49). -/
theorem encu_idle_bytesFrom {s t : State} {r : Request} {rest : List HostMove} (hwf : Memory.wf s.mem = true)
    (hp : s.Presents r rest) (ht : exec .encu s = .next t) (hidle : t.status = .idle) (k : Nat)
    (hk : k < sizeByRange r.value) : t.bytesFrom r.cursor k = canonicalByte r.value k :=
  (encuWritesExactlyItsBytes s t r rest hwf hp ht hidle).2.1 k hk

/-- Settles O42: ENCU leaves the bytes of its form, whose continuation bits and last byte are canonical. -/
theorem encodingIsCanonical : Obligations.EncodingIsCanonical := by
  intro s t r rest hwf hp ht hidle
  have hbytes := encu_idle_bytesFrom hwf hp ht hidle
  have h5 := sizeByRange_le r.value
  obtain ⟨k, hk⟩ := Nat.exists_eq_add_one.mpr (sizeByRange_pos r.value)
  have hmore (j : Nat) (hj : j < k) : continues (t.bytesFrom r.cursor j) = true := by
    rw [hbytes j (by omega), continues_canonicalByte, decide_eq_true (by omega)]
  have hlast : continues (t.bytesFrom r.cursor k) = false := by
    rw [hbytes k (by omega), continues_canonicalByte, decide_eq_false (by omega)]
  rw [hk, Nat.add_sub_cancel]
  refine ⟨seqLength_eq (by omega) hmore hlast, fun j hj => hmore j (by omega), hlast, fun hv => ?_, fun hfive => ?_⟩
  · have hpos := toNat_canonicalByte_last_pos hv hk
    rw [hbytes k (by omega)]
    exact fun hzero => absurd (congrArg BitVec.toNat hzero) hpos.ne'
  · obtain rfl : k = 4 := by omega
    have hv : r.value ≠ 0#32 := fun hzero => by rw [hzero] at hk; exact absurd hk (by decide)
    have hpos := toNat_canonicalByte_last_pos hv hk
    have h32 := r.value.isLt
    rw [hbytes 4 (by omega)]
    rw [toNat_canonicalByte_last hk] at hpos ⊢
    omega

/-! ### The groups of a decoded value -/

/-- In a 32-bit word the fifth byte's low nibble is all of its group that has a place (R69). -/
theorem placeLast_eq_placeGroup (acc : Word) (b : Byte) : placeLast acc b = placeGroup acc 4 b := by
  unfold placeLast placeGroup
  refine congrArg (acc ||| ·) ?_
  apply BitVec.eq_of_getLsbD_eq
  intro j hj
  simp only [lowNibble, payload, BitVec.getLsbD_shiftLeft, BitVec.getLsbD_setWidth, BitVec.getLsbD_extractLsb']
  have h4 : j - 28 < 4 := by omega
  have h7 : j - 28 < 7 := by omega
  simp [h4, h7]

/-- The value of a sequence is all its groups placed, a fifth one too. -/
theorem placedValue_eq_groupsPlaced (f : Nat → Byte) (n : Nat) (h1 : 1 ≤ n) (h5 : n ≤ 5) :
    placedValue f n = groupsPlaced f n := by
  rw [← accumulated_eq_placedValue f n h1 h5, accumulated]
  split
  · rename_i hn
    rw [hn, placeLast_eq_placeGroup]
    rfl
  · rfl

theorem groupsPlaced_lt (f : Nat → Byte) (n : Nat) : (groupsPlaced f n).toNat < 2 ^ (7 * n) := by
  induction n with
  | zero => exact Nat.one_pos
  | succ n ih => exact placeGroup_lt _ n (f n) ih

/-- Bit `j` of the groups placed is bit `j % 7` of group `j / 7` (R69). -/
theorem getLsbD_groupsPlaced (f : Nat → Byte) (n j : Nat) :
    (groupsPlaced f n).getLsbD j =
      (decide (j < 32) && decide (j < 7 * n) && (payload (f (j / 7))).getLsbD (j % 7)) := by
  induction n with
  | zero => simp [groupsPlaced]
  | succ n ih =>
    rw [groupsPlaced, placeGroup, BitVec.getLsbD_or, ih, BitVec.getLsbD_shiftLeft, BitVec.getLsbD_setWidth]
    by_cases hlow : j < 7 * n
    · have hnext : j < 7 * (n + 1) := by omega
      simp [hlow, hnext]
    · by_cases hnext : j < 7 * (n + 1)
      · have hdiv : j / 7 = n := by omega
        have hmod : j % 7 = j - 7 * n := by omega
        have hwidth (h : j < 32) : j - 7 * n < 32 := by omega
        by_cases h32 : j < 32 <;> simp [hlow, hnext, hdiv, hmod, h32, hwidth]
      · simp [hlow, hnext, BitVec.getLsbD_of_ge (payload (f n)) (j - 7 * n) (by omega)]

/-- A group placed is read back where no bit of it falls beyond the word. -/
theorem extractLsb'_groupsPlaced {f : Nat → Byte} {n k : Nat} (hk : k < n)
    (hfits : ∀ i, 32 ≤ 7 * k + i → (payload (f k)).getLsbD i = false) :
    (groupsPlaced f n).extractLsb' (7 * k) 7 = payload (f k) := by
  apply BitVec.eq_of_getLsbD_eq
  intro i hi
  have hdiv : (7 * k + i) / 7 = k := by omega
  have hmod : (7 * k + i) % 7 = i := by omega
  have hplaced : 7 * k + i < 7 * n := by omega
  rw [BitVec.getLsbD_extractLsb', getLsbD_groupsPlaced, hdiv, hmod]
  by_cases h32 : 7 * k + i < 32
  · simp [hi, h32, hplaced]
  · simp [h32, hfits i (by omega)]

/-- A byte with a clear high nibble has no bit from bit 4 on. -/
theorem getLsbD_of_highNibble_eq_zero {b : Byte} (h : highNibble b = 0#4) {i : Nat} (hi : 4 ≤ i) :
    b.getLsbD i = false := by
  have hbit := congrArg (fun x : BitVec 4 => x.getLsbD (i - 4)) h
  by_cases h8 : i < 8
  · have h4 : i - 4 < 4 := by omega
    simpa [highNibble, BitVec.getLsbD_extractLsb', h4, Nat.add_sub_cancel' hi] using hbit
  · exact BitVec.getLsbD_of_ge b i (by omega)

/-- A sequence as long as the size of its value, with a clear high nibble in a fifth byte, is ENCU's form of it (R71). -/
theorem eq_canonicalByte_of_minimal {f : Nat → Byte} {v : Word} (hv : v = groupsPlaced f (seqLength f))
    (hsize : seqLength f = sizeByRange v) (hfifth : sizeByRange v = 5 → highNibble (f 4) = 0#4) (k : Nat)
    (hk : k < sizeByRange v) : f k = canonicalByte v k := by
  have h5 := sizeByRange_le v
  have hcontinues : continues (f k) = decide (k + 1 < seqLength f) :=
    continues_eq_of_lt_seqLength (hsize ▸ hk) fun hn =>
      getLsbD_of_highNibble_eq_zero (hfifth (hsize ▸ hn)) (by decide)
  have hgroup : v.extractLsb' (7 * k) 7 = payload (f k) := by
    rw [hv]
    refine extractLsb'_groupsPlaced (hsize ▸ hk) fun i hi => ?_
    by_cases h7 : i < 7
    · obtain rfl : k = 4 := by omega
      rw [payload, BitVec.getLsbD_extractLsb', Nat.zero_add,
        getLsbD_of_highNibble_eq_zero (hfifth (by omega)) (by omega), Bool.and_false]
    · exact BitVec.getLsbD_of_ge _ i (by omega)
  rw [canonicalByte, ← hsize, ← hcontinues, hgroup, ofBool_continues_append_payload]

/-- A DECU that responds gives the groups of its sequence, placed, and the cursor behind it (R82). -/
theorem decu_response {s t : State} {r : Request} {rest : List HostMove} {v : Word} {c : Nat} (hp : s.Presents r rest)
    (ht : exec .decu s = .next t) (hr : t.response = some (.decu v c)) :
    v = groupsPlaced (s.bytesFrom r.cursor) (seqLength (s.bytesFrom r.cursor)) ∧
      c = r.cursor + seqLength (s.bytesFrom r.cursor) := by
  rcases decode_response rfl hp ht hr with ⟨hchecked, -⟩ | ⟨-, he⟩
  · cases hchecked
  · cases he
    exact ⟨placedValue_eq_groupsPlaced _ _ (seqLength_pos _) (seqLength_le _), rfl⟩

/-- Settles O43: `N` groups hold no larger value, and a sequence of minimal length is ENCU's group by group. -/
theorem encodingIsUniqueMinimal : Obligations.EncodingIsUniqueMinimal := by
  intro s t r rest v c hp ht hr
  obtain ⟨hv, rfl⟩ := decu_response hp ht hr
  rw [Nat.add_sub_cancel_left]
  have h5 := seqLength_le (s.bytesFrom r.cursor)
  have hlt := groupsPlaced_lt (s.bytesFrom r.cursor) (seqLength (s.bytesFrom r.cursor))
  rw [← hv] at hlt
  obtain ⟨k, hk⟩ := Nat.exists_eq_add_one.mpr (seqLength_pos (s.bytesFrom r.cursor))
  rw [hk] at hlt
  refine ⟨hk ▸ (sizeByRange_le_iff v k (by omega)).mpr hlt, fun hsize hfifth => ?_⟩
  exact eq_canonicalByte_of_minimal hv hsize hfifth

end Sys2Proof.Machine
end

section
/-!
PROOFS. The unchecked decodes (40_decode_unchecked.md): DECU and DECS with each of their ends (R82, R83), the sign extension
in closed form (R81), and what the two decodes have in common (R85, R87).
-/

namespace Sys2Proof.Machine

/-! ### The ends of an unchecked decode -/

section
variable {i : Instr} {signed : Bool} {s s' t : State} {r : Request} {rest : List HostMove}

/-- A readable sequence with a representable cursor behind it: the response (R82, R83). -/
theorem unchecked_responds (hop : opTick i = decodeTick i false false signed) (hp : s.Presents r rest)
    (hread : s.ReadableRun r.cursor (seqLength (s.bytesFrom r.cursor)))
    (hfit : r.cursor + seqLength (s.bytesFrom r.cursor) < 2 ^ s.launch.addrWidth) :
    exec i s = .next (s.responded rest (readsFrom r.cursor (seqLength (s.bytesFrom r.cursor)))
      (decodeResponse false signed true (placed signed (s.bytesFrom r.cursor) (seqLength (s.bytesFrom r.cursor)))
        (r.cursor + seqLength (s.bytesFrom r.cursor)))) := by
  rw [exec_presented i s r rest hp, hop]
  exact congrArg _ (decodeRun_responds i false false signed r rest s ((reachesByte_unchecked _ _ _ _).mpr hread)
    (fun _ => badFinalByte_unchecked _) hfit)

/-- The first unreadable byte of the sequence: `MemReadFault` (R45). -/
theorem unchecked_unreadable (hop : opTick i = decodeTick i false false signed) (hp : s.Presents r rest) {k : Nat}
    (hk : k < seqLength (s.bytesFrom r.cursor)) (hread : s.ReadableRun r.cursor k)
    (hno : s.canRead (r.cursor + k) = false) :
    exec i s = .next (s.stopped rest (readsFrom r.cursor k) (.memReadFault r.cmd (r.cursor + k))) := by
  rw [exec_presented i s r rest hp, hop]
  exact congrArg _ (decodeRun_unreadable i false false signed r rest s k hk
    ((reachesByte_unchecked _ _ _ _).mpr hread) (pastLimit_unchecked _ _ _) hno)

/-- A readable sequence up to the top of the address space: `CursorOverflow` (R144). -/
theorem unchecked_overflows (hop : opTick i = decodeTick i false false signed) (hp : s.Presents r rest)
    (hread : s.ReadableRun r.cursor (seqLength (s.bytesFrom r.cursor)))
    (hover : 2 ^ s.launch.addrWidth ≤ r.cursor + seqLength (s.bytesFrom r.cursor)) :
    exec i s = .next (s.stopped rest (readsFrom r.cursor (seqLength (s.bytesFrom r.cursor)))
      (.cursorOverflow r.cmd (r.cursor + seqLength (s.bytesFrom r.cursor)))) := by
  rw [exec_presented i s r rest hp, hop]
  exact congrArg _ (decodeRun_overflows i false false signed r rest s ((reachesByte_unchecked _ _ _ _).mpr hread)
    (fun _ => badFinalByte_unchecked _) hover)

/-- One of the three ends is reached, on conditions that do not tell DECU from DECS. -/
theorem unchecked_ends (r : Request) (s : State) :
    (∃ k, k < seqLength (s.bytesFrom r.cursor) ∧ s.ReadableRun r.cursor k ∧ s.canRead (r.cursor + k) = false) ∨
      s.ReadableRun r.cursor (seqLength (s.bytesFrom r.cursor)) ∧
        (r.cursor + seqLength (s.bytesFrom r.cursor) < 2 ^ s.launch.addrWidth ∨
          2 ^ s.launch.addrWidth ≤ r.cursor + seqLength (s.bytesFrom r.cursor)) := by
  rcases decodeRun_ends false false r s with ⟨k, -, -, hl⟩ | ⟨k, hk, hreach, -, hno⟩ | ⟨hreach, -⟩ | ⟨-, -, hbad⟩
  · exact absurd (checked_of_pastLimit hl) Bool.false_ne_true
  · exact .inl ⟨k, hk, (reachesByte_unchecked _ _ _ _).mp hreach, hno⟩
  · exact .inr ⟨(reachesByte_unchecked _ _ _ _).mp hreach, Nat.lt_or_ge _ _⟩
  · exact absurd (checked_of_badFinalByte hbad) Bool.false_ne_true

theorem State.ReadableRun.congr {c n : Nat} (h : s.ReadableRun c n) (hl : s'.launch = s.launch) :
    s'.ReadableRun c n :=
  fun k hk => (State.canRead_congr s s' hl _).trans (h k hk)

/-- An unchecked decode sees of memory the sequence's length and value only. -/
theorem unchecked_congr (hop : opTick i = decodeTick i false false signed) (hp : s.Presents r rest)
    (hp' : s'.Presents r rest) (hl : s'.launch = s.launch)
    (hlength : seqLength (s'.bytesFrom r.cursor) = seqLength (s.bytesFrom r.cursor))
    (hvalue : placed signed (s'.bytesFrom r.cursor) (seqLength (s.bytesFrom r.cursor)) =
      placed signed (s.bytesFrom r.cursor) (seqLength (s.bytesFrom r.cursor)))
    (ht : exec i s = .next t) :
    ∃ t', exec i s' = .next t' ∧ t'.response = t.response ∧ t'.status = t.status ∧ t'.trace = t.trace := by
  rcases unchecked_ends r s with ⟨k, hk, hread, hno⟩ | ⟨hread, hfit | hover⟩
  · cases (unchecked_unreadable hop hp hk hread hno).symm.trans ht
    exact ⟨_, unchecked_unreadable hop hp' (hlength ▸ hk) (hread.congr hl) ((State.canRead_congr s s' hl _).trans hno),
      rfl, rfl, rfl⟩
  · cases (unchecked_responds hop hp hread hfit).symm.trans ht
    have he := unchecked_responds hop hp' (hlength ▸ hread.congr hl) (by rw [hlength, hl]; exact hfit)
    rw [hlength, hvalue] at he
    exact ⟨_, he, rfl, rfl, rfl⟩
  · cases (unchecked_overflows hop hp hread hover).symm.trans ht
    have he := unchecked_overflows hop hp' (hlength ▸ hread.congr hl) (by rw [hlength, hl]; exact hover)
    rw [hlength] at he
    exact ⟨_, he, rfl, rfl, rfl⟩

end

/-! ### DECU and DECS (R82, R83) -/

theorem opTick_decu : opTick .decu = decodeTick .decu false false false := rfl

theorem opTick_decs : opTick .decs = decodeTick .decs false false true := rfl

/-- Settles O11: DECU is the unsigned unchecked decode. -/
theorem decuRule : Obligations.DecuRule :=
  ⟨rfl, fun _ _ _ hp =>
    ⟨unchecked_responds opTick_decu hp, fun _ => unchecked_unreadable opTick_decu hp, unchecked_overflows opTick_decu hp⟩⟩

/-- Settles O12: DECS is the signed unchecked decode. -/
theorem decsRule : Obligations.DecsRule :=
  ⟨rfl, fun _ _ _ hp =>
    ⟨unchecked_responds opTick_decs hp, fun _ => unchecked_unreadable opTick_decs hp, unchecked_overflows opTick_decs hp⟩⟩

/-! ### The sign extension (R81) -/

/-- The shifts of R81 extend the sign of the accumulator's low `7N` bits. -/
theorem signExtendGroups_eq_signExtend {acc : Word} {n : Nat} (h1 : 1 ≤ n) (h4 : n ≤ 4)
    (hlt : acc.toNat < 2 ^ (7 * n)) : signExtendGroups acc n = (acc.setWidth (7 * n)).signExtend 32 := by
  have hlow : (acc.setWidth (7 * n)).setWidth 32 = acc := by
    apply BitVec.eq_of_toNat_eq
    rw [BitVec.toNat_setWidth, BitVec.toNat_setWidth, Nat.mod_eq_of_lt hlt, Nat.mod_eq_of_lt acc.isLt]
  rw [← shift_pair_eq_signExtend _ (by omega) (by omega), hlow, signExtendGroups, if_neg (by omega)]

theorem signExtendGroups_closed {acc : Word} {n : Nat} (h1 : 1 ≤ n) (h4 : n ≤ 4) (hlt : acc.toNat < 2 ^ (7 * n)) :
    signExtendGroups acc n = if acc.getLsbD (7 * n - 1) then acc - BitVec.ofNat 32 (2 ^ (7 * n)) else acc := by
  have hsign : (acc.setWidth (7 * n)).msb = acc.getLsbD (7 * n - 1) := by
    rw [BitVec.msb_eq_getLsbD_last, BitVec.getLsbD_setWidth, decide_eq_true (by omega), Bool.true_and]
  have h28 : 2 ^ (7 * n) ≤ 2 ^ 28 := Nat.pow_le_pow_right (by decide) (by omega)
  have h32 := acc.isLt
  rw [signExtendGroups_eq_signExtend h1 h4 hlt]
  apply BitVec.eq_of_toNat_eq
  rw [BitVec.toNat_signExtend, hsign, BitVec.toNat_setWidth, BitVec.toNat_setWidth, Nat.mod_eq_of_lt hlt,
    Nat.mod_eq_of_lt h32]
  generalize 2 ^ (7 * n) = p at *
  split
  · rw [BitVec.toNat_sub, BitVec.toNat_ofNat]
    omega
  · rfl

/-- Settles O38, by the sign extension of the low `7N` bits. -/
theorem signExtensionClosedForm : Obligations.SignExtensionClosedForm :=
  ⟨fun _ => if_pos rfl, fun _ _ h1 h4 hlt => signExtendGroups_closed h1 h4 hlt⟩

/-- The sign extension changes nothing where the value fills the word or its sign is clear (R87). -/
theorem signExtendGroups_eq_self {acc : Word} {n : Nat} (h1 : 1 ≤ n) (h5 : n ≤ 5) (hlt : acc.toNat < 2 ^ (7 * n))
    (h : n = 5 ∨ acc.getLsbD (7 * n - 1) = false) : signExtendGroups acc n = acc := by
  by_cases hn : n = 5
  · exact if_pos hn
  · rw [signExtendGroups_closed h1 (by omega) hlt, h.resolve_left hn, if_neg Bool.false_ne_true]

/-! ### DECS against DECU (R87) -/

/-- Settles O39: the ends of the two decodes have the same conditions, and differ in the value alone. -/
theorem signedDecodeExtendsUnsigned : Obligations.SignedDecodeExtendsUnsigned := by
  intro s t r rest hp ht
  obtain ⟨-, hdecu⟩ := decuRule
  obtain ⟨-, hdecs⟩ := decsRule
  obtain ⟨uresponds, ustopped, uoverflows⟩ := hdecu s r rest hp
  obtain ⟨sresponds, sstopped, soverflows⟩ := hdecs s r rest hp
  rcases unchecked_ends r s with ⟨k, hk, hread, hno⟩ | ⟨hread, hfit | hover⟩
  · cases (ustopped k hk hread hno).symm.trans ht
    exact ⟨_, sstopped k hk hread hno, rfl, rfl, fun _ => rfl, nofun⟩
  · cases (uresponds hread hfit).symm.trans ht
    refine ⟨_, sresponds hread hfit, rfl, rfl, nofun, fun v c hr => ?_⟩
    cases hr
    have h1 := seqLength_pos (s.bytesFrom r.cursor)
    have h5 := seqLength_le (s.bytesFrom r.cursor)
    rw [Nat.add_sub_cancel_left]
    refine ⟨by rw [signExtendGroups_placedValue _ _ h1 h5]; rfl, signExtendGroups_eq_self h1 h5 ?_⟩
    rw [placedValue_eq_groupsPlaced _ _ h1 h5]
    exact groupsPlaced_lt _ _
  · cases (uoverflows hread hover).symm.trans ht
    exact ⟨_, soverflows hread hover, rfl, rfl, fun _ => rfl, nofun⟩

/-! ### The fifth byte (R85) -/

/-- Four continuing bytes have a fifth behind them (R68). -/
theorem seqLength_eq_five {f : Nat → Byte} (h : ∀ k, k < 4 → continues (f k) = true) : seqLength f = 5 := by
  simp [seqLength, h]

/-- Of the fifth byte the value has the low nibble (R69). -/
theorem placed_five_congr (signed : Bool) {f g : Nat → Byte} (h : ∀ k, k < 4 → g k = f k)
    (hlow : lowNibble (g 4) = lowNibble (f 4)) : placed signed g 5 = placed signed f 5 := by
  cases signed <;> simp [placed, placedValue, placedSigned, h, hlow]

theorem bytesFrom_hostWrite_same {s : State} (h : Memory.wf s.mem = true) (c k : Nat) (b : Byte) :
    (s.hostWrite (c + k) b).bytesFrom c k = b :=
  Memory.read_write_same s.mem (c + k) b h

theorem bytesFrom_hostWrite_other (s : State) (c : Nat) (b : Byte) {j k : Nat} (h : j ≠ k) :
    (s.hostWrite (c + k) b).bytesFrom c j = s.bytesFrom c j :=
  Memory.read_write_other s.mem (c + k) (c + j) b (by omega)

/-- DECU and DECS are the two unchecked decodes. -/
theorem opTick_unchecked {i : Instr} (h : i = .decu ∨ i = .decs) :
    ∃ signed, opTick i = decodeTick i false false signed := by
  rcases h with rfl | rfl
  · exact ⟨false, opTick_decu⟩
  · exact ⟨true, opTick_decs⟩

/-- Settles O40: with either fifth byte the sequence has five bytes and the same value. -/
theorem fifthByteHighNibbleIsIgnored : Obligations.FifthByteHighNibbleIsIgnored := by
  intro i s t r rest x y hi hwf hp hmore hlow ht
  obtain ⟨signed, hop⟩ := opTick_unchecked hi
  have hfirst (b : Byte) (k : Nat) (hk : k < 4) :
      (s.hostWrite (r.cursor + 4) b).bytesFrom r.cursor k = s.bytesFrom r.cursor k :=
    bytesFrom_hostWrite_other s r.cursor b (by omega)
  have hfive (b : Byte) : seqLength ((s.hostWrite (r.cursor + 4) b).bytesFrom r.cursor) = 5 :=
    seqLength_eq_five fun k hk => by rw [hfirst b k hk, hmore k hk]
  refine unchecked_congr (s := s.hostWrite (r.cursor + 4) x) hop hp hp rfl ((hfive y).trans (hfive x).symm) ?_ ht
  rw [hfive x]
  refine placed_five_congr signed (fun k hk => (hfirst y k hk).trans (hfirst x k hk).symm) ?_
  rw [bytesFrom_hostWrite_same hwf, bytesFrom_hostWrite_same hwf, hlow]

end Sys2Proof.Machine
end

section
/-!
PROOFS. The checked decodes (41_decode_checked.md): DECUC and DECSC with each of their ends (R100, R101), what a limit hides
(R102, R106), and their agreement with the unchecked decodes (R108).
-/

namespace Sys2Proof.Machine

/-! ### The ends of a checked decode -/

/-- A checked decode reaches byte `k` where the bytes before it are readable and end no later than the limit. -/
theorem ReachesByte.checked {lim : Bool} {s : State} {r : Request} {k : Nat} (hread : s.ReadableRun r.cursor k)
    (hlim : lim = true → r.cursor + k ≤ r.limit) : ReachesByte true lim r s k :=
  (reachesByte_checked lim r s k).mpr ⟨hread, fun h j hj => Nat.lt_of_lt_of_le (by omega) (hlim h)⟩

/-- The limit check passes an address below the limit (R102). -/
theorem pastLimit_eq_false {checked lim : Bool} {r : Request} {a : Nat} (h : lim = true → a < r.limit) :
    pastLimit checked lim r a = false := by
  cases lim with
  | false => exact pastLimit_unlimited checked r a
  | true =>
    have hlt := h rfl
    simp [pastLimit, hlt]

/-- The fifth-byte check passes a clear high nibble (R103). -/
theorem badFinalByte_eq_false {checked : Bool} {b : Byte} (h : highNibble b = 0#4) : badFinalByte checked b = false := by
  simp [badFinalByte, h]

/-- InvalidEncoding delivers `OK = 0` with some value and some cursor of the field's width, for one draw (R24, R105). -/
theorem invalid_delivers (signed : Bool) (rest : List HostMove) (tr : List Access) (s : State) :
    ∃ (v : Word) (c : Nat), c < 2 ^ s.launch.addrWidth ∧
      State.invalid (decodeResponse true signed false)
          { s with status := .idle, response := none, trace := tr, moves := rest } =
        { s with draws := s.draws + 1 }.responded rest tr (decodeResponse true signed false v c) :=
  ⟨Config.freeValue s.draws, Config.freeCursor s.draws % 2 ^ s.launch.addrWidth,
    Nat.mod_lt _ (Nat.two_pow_pos s.launch.addrWidth), rfl⟩

section
variable {i : Instr} {lim signed : Bool} {s : State} {r : Request} {rest : List HostMove}

/-- A well-formed readable sequence within the limit, with a representable cursor behind it: `OK = 1` (R104). -/
theorem checked_responds (hop : opTick i = decodeTick i true lim signed) (hp : s.Presents r rest)
    (hread : s.ReadableRun r.cursor (seqLength (s.bytesFrom r.cursor)))
    (hlim : lim = true → r.cursor + seqLength (s.bytesFrom r.cursor) ≤ r.limit)
    (hfifth : seqLength (s.bytesFrom r.cursor) = 5 → highNibble (s.bytesFrom r.cursor 4) = 0#4)
    (hfit : r.cursor + seqLength (s.bytesFrom r.cursor) < 2 ^ s.launch.addrWidth) :
    exec i s = .next (s.responded rest (readsFrom r.cursor (seqLength (s.bytesFrom r.cursor)))
      (decodeResponse true signed true (placed signed (s.bytesFrom r.cursor) (seqLength (s.bytesFrom r.cursor)))
        (r.cursor + seqLength (s.bytesFrom r.cursor)))) := by
  rw [exec_presented i s r rest hp, hop]
  exact congrArg _ (decodeRun_responds i true lim signed r rest s (.checked hread hlim)
    (fun h5 => badFinalByte_eq_false (hfifth h5)) hfit)

/-- The first byte of the sequence that is not below the limit: `OK = 0` (R102). -/
theorem checked_pastLimit (hop : opTick i = decodeTick i true lim signed) (hp : s.Presents r rest) {k : Nat}
    (hk : k < seqLength (s.bytesFrom r.cursor)) (hread : s.ReadableRun r.cursor k) (hlim : lim = true)
    (hbelow : ∀ j, j < k → r.cursor + j < r.limit) (hpast : r.limit ≤ r.cursor + k) :
    ∃ (v : Word) (c : Nat), c < 2 ^ s.launch.addrWidth ∧
      exec i s = .next ({ s with draws := s.draws + 1 }.responded rest (readsFrom r.cursor k)
        (decodeResponse true signed false v c)) := by
  subst hlim
  obtain ⟨v, c, hc, hinvalid⟩ := invalid_delivers signed rest (readsFrom r.cursor k) s
  refine ⟨v, c, hc, ?_⟩
  rw [exec_presented i s r rest hp, hop, ← hinvalid]
  exact congrArg _ (decodeRun_pastLimit i true true signed r rest s k hk
    ((reachesByte_checked true r s k).mpr ⟨hread, fun _ => hbelow⟩)
    ((pastLimit_limited r _).trans (decide_eq_true hpast)))

/-- A fifth byte with a high nibble: `OK = 0` (R103). -/
theorem checked_badFinalByte (hop : opTick i = decodeTick i true lim signed) (hp : s.Presents r rest)
    (h5 : seqLength (s.bytesFrom r.cursor) = 5) (hread : s.ReadableRun r.cursor 5)
    (hlim : lim = true → r.cursor + 5 ≤ r.limit) (hbad : highNibble (s.bytesFrom r.cursor 4) ≠ 0#4) :
    ∃ (v : Word) (c : Nat), c < 2 ^ s.launch.addrWidth ∧
      exec i s = .next ({ s with draws := s.draws + 1 }.responded rest (readsFrom r.cursor 5)
        (decodeResponse true signed false v c)) := by
  obtain ⟨v, c, hc, hinvalid⟩ := invalid_delivers signed rest (readsFrom r.cursor 5) s
  refine ⟨v, c, hc, ?_⟩
  rw [exec_presented i s r rest hp, hop, ← hinvalid]
  exact congrArg _ (decodeRun_badFinalByte i true lim signed r rest s h5 (.checked hread hlim)
    ((badFinalByte_checked _).trans (decide_eq_true hbad)))

/-- The first unreadable byte of the sequence, below the limit: `MemReadFault` (R45, R145). -/
theorem checked_unreadable (hop : opTick i = decodeTick i true lim signed) (hp : s.Presents r rest) {k : Nat}
    (hk : k < seqLength (s.bytesFrom r.cursor)) (hread : s.ReadableRun r.cursor k)
    (hlim : lim = true → r.cursor + k < r.limit) (hno : s.canRead (r.cursor + k) = false) :
    exec i s = .next (s.stopped rest (readsFrom r.cursor k) (.memReadFault r.cmd (r.cursor + k))) := by
  rw [exec_presented i s r rest hp, hop]
  exact congrArg _ (decodeRun_unreadable i true lim signed r rest s k hk (.checked hread fun h => (hlim h).le)
    (pastLimit_eq_false hlim) hno)

/-- A well-formed sequence up to the top of the address space: `CursorOverflow` (R144). -/
theorem checked_overflows (hop : opTick i = decodeTick i true lim signed) (hp : s.Presents r rest)
    (hread : s.ReadableRun r.cursor (seqLength (s.bytesFrom r.cursor)))
    (hlim : lim = true → r.cursor + seqLength (s.bytesFrom r.cursor) ≤ r.limit)
    (hfifth : seqLength (s.bytesFrom r.cursor) = 5 → highNibble (s.bytesFrom r.cursor 4) = 0#4)
    (hover : 2 ^ s.launch.addrWidth ≤ r.cursor + seqLength (s.bytesFrom r.cursor)) :
    exec i s = .next (s.stopped rest (readsFrom r.cursor (seqLength (s.bytesFrom r.cursor)))
      (.cursorOverflow r.cmd (r.cursor + seqLength (s.bytesFrom r.cursor)))) := by
  rw [exec_presented i s r rest hp, hop]
  exact congrArg _ (decodeRun_overflows i true lim signed r rest s (.checked hread hlim)
    (fun h5 => badFinalByte_eq_false (hfifth h5)) hover)

end

/-! ### DECUC and DECSC (R100, R101) -/

theorem opTick_decuc (lim : Bool) : opTick (.decuc lim) = decodeTick (.decuc lim) true lim false := rfl

theorem opTick_decsc (lim : Bool) : opTick (.decsc lim) = decodeTick (.decsc lim) true lim true := rfl

/-- Settles O13: DECUC is the unsigned checked decode. -/
theorem decucRule : Obligations.DecucRule :=
  ⟨rfl, rfl, fun lim _ _ _ hp =>
    ⟨checked_responds (opTick_decuc lim) hp, fun _ => checked_pastLimit (opTick_decuc lim) hp,
      checked_badFinalByte (opTick_decuc lim) hp, fun _ => checked_unreadable (opTick_decuc lim) hp,
      checked_overflows (opTick_decuc lim) hp⟩⟩

/-- Settles O14: DECSC is the signed checked decode. -/
theorem decscRule : Obligations.DecscRule :=
  ⟨rfl, rfl, fun lim _ _ _ hp =>
    ⟨checked_responds (opTick_decsc lim) hp, fun _ => checked_pastLimit (opTick_decsc lim) hp,
      checked_badFinalByte (opTick_decsc lim) hp, fun _ => checked_unreadable (opTick_decsc lim) hp,
      checked_overflows (opTick_decsc lim) hp⟩⟩

/-! ### The bytes beyond the limit (R102) -/

/-- That a sequence is longer than `k` bytes is fixed by its first `k` bytes. -/
theorem lt_seqLength_congr {f g : Nat → Byte} {k : Nat} (hk : k < seqLength f) (h : ∀ j, j < k → g j = f j) :
    k < seqLength g := by
  by_contra hle
  have hlength := seqLength_congr g f fun j hj => (h j (by omega)).symm
  omega

/-- Each end of the loop of a decode is the same in a memory that holds the same bytes wherever the limit check lets the
decode read, but for that memory. -/
theorem decodeRun_blind (op : Instr) (checked lim signed : Bool) (r : Request) (rest : List HostMove) (s : State)
    (m : List Host.Cell) (hm : ∀ a, pastLimit checked lim r a = false → Memory.read m a = Memory.read s.mem a) :
    runBusy (decodeTick op checked lim signed) Config.maxBytes (State.accept op r rest { s with mem := m }) =
      { runBusy (decodeTick op checked lim signed) Config.maxBytes (s.accept op r rest) with mem := m } := by
  have hbytes {k : Nat} (hreach : ReachesByte checked lim r s k) (j : Nat) (hj : j < k) :
      State.bytesFrom { s with mem := m } r.cursor j = s.bytesFrom r.cursor j := hm _ (hreach j hj).1
  rcases decodeRun_cases op checked lim signed r rest s with
    ⟨k, hk, hreach, hl, he⟩ | ⟨k, hk, hreach, hl, hno, he⟩ | ⟨hreach, hok, hfit, he⟩ | ⟨hreach, hok, hover, he⟩ |
      ⟨h5, hreach, hb, he⟩ <;>
    rw [he]
  · exact decodeRun_pastLimit op checked lim signed r rest _ k (lt_seqLength_congr hk (hbytes hreach)) hreach hl
  · exact decodeRun_unreadable op checked lim signed r rest _ k (lt_seqLength_congr hk (hbytes hreach)) hreach hl hno
  · have hlength := seqLength_congr _ _ (hbytes hreach)
    have hend := decodeRun_responds op checked lim signed r rest { s with mem := m } (hlength ▸ hreach)
      (fun h5 => by rw [hbytes hreach 4 (by omega)]; exact hok (hlength ▸ h5)) (hlength ▸ hfit)
    rw [hlength, placed_congr signed _ _ (hbytes hreach)] at hend
    exact hend
  · have hlength := seqLength_congr _ _ (hbytes hreach)
    have hend := decodeRun_overflows op checked lim signed r rest { s with mem := m } (hlength ▸ hreach)
      (fun h5 => by rw [hbytes hreach 4 (by omega)]; exact hok (hlength ▸ h5)) (hlength ▸ hover)
    rw [hlength] at hend
    exact hend
  · have hlength := seqLength_congr _ _ (h5.symm ▸ hbytes hreach)
    exact decodeRun_badFinalByte op checked lim signed r rest _ (hlength.trans h5) hreach
      ((hbytes hreach 4 (by omega)).symm ▸ hb)

/-- DECUC and DECSC with `LIM = 1` are the checked decodes with a limit. -/
theorem opTick_limited {i : Instr} (h : i = .decuc true ∨ i = .decsc true) :
    ∃ signed, opTick i = decodeTick i true true signed := by
  rcases h with rfl | rfl
  · exact ⟨false, opTick_decuc true⟩
  · exact ⟨true, opTick_decsc true⟩

/-- Settles O23: the loop of a limited decode reads below the limit alone. -/
theorem limitedDecodeIsBlindBeyondLimit : Obligations.LimitedDecodeIsBlindBeyondLimit := by
  intro i s r rest m hi hp hm
  obtain ⟨signed, hop⟩ := opTick_limited hi
  have hblind := decodeRun_blind i true true signed r rest s m fun a ha =>
    hm a (Nat.lt_of_not_le (of_decide_eq_false ((pastLimit_limited r a).symm.trans ha)))
  refine ⟨_, exec_presented i s r rest hp, ?_⟩
  rw [exec_presented i { s with mem := m } r rest hp, hop, hblind]

/-! ### A limit at or below the cursor (R106) -/

/-- The first byte is past such a limit: `OK = 0` with nothing read. -/
theorem limited_reads_nothing {i : Instr} {signed : Bool} {s : State} {r : Request} {rest : List HostMove}
    (hop : opTick i = decodeTick i true true signed) (hp : s.Presents r rest) (hlimit : r.limit ≤ r.cursor) :
    ∃ t v c, exec i s = .next t ∧ t.trace = [] ∧ t.status = .idle ∧
      t.response = some (decodeResponse true signed false v c) := by
  obtain ⟨v, c, -, he⟩ := checked_pastLimit hop hp (seqLength_pos _) nofun rfl nofun hlimit
  exact ⟨_, v, c, he, rfl, rfl, rfl⟩

/-- A decode that the limit check stops is DECUC or DECSC with `LIM = 1`, at an address not below the limit (R102). -/
theorem limited_of_pastLimit {i : Instr} {r : Request} {a : Nat}
    (h : pastLimit (decodeForm i).1 (decodeForm i).2.1 r a = true) :
    (i = .decuc true ∨ i = .decsc true) ∧ r.limit ≤ a := by
  simp only [pastLimit, Bool.and_eq_true, decide_eq_true_eq] at h
  obtain ⟨⟨hchecked, hlim⟩, hle⟩ := h
  refine ⟨?_, hle⟩
  cases i with
  | decu => cases hchecked
  | decs => cases hchecked
  | decuc lim => exact .inl (congrArg _ hlim)
  | decsc lim => exact .inr (congrArg _ hlim)
  | encu => cases hchecked
  | sizeu => cases hchecked

theorem readsFrom_eq_nil {c n : Nat} (h : readsFrom c n = []) : n = 0 := by
  rw [← readsFrom_length c n, h, List.length_nil]

/-- A decode that ends `Idle` and has read nothing was stopped by the limit before its first byte. -/
theorem decode_idle_reads_nothing {i : Instr} {s t : State} {r : Request} {rest : List HostMove}
    (hop : readsMemory i = true) (hp : s.Presents r rest) (ht : exec i s = .next t) (hidle : t.status = .idle)
    (hnone : t.trace = []) : pastLimit (decodeForm i).1 (decodeForm i).2.1 r r.cursor = true := by
  rw [exec_presented i s r rest hp, opTick_decode i hop] at ht
  rcases decodeRun_cases i (decodeForm i).1 (decodeForm i).2.1 (decodeForm i).2.2 r rest s with
    ⟨k, -, -, hl, he⟩ | ⟨k, -, -, -, -, he⟩ | ⟨-, -, -, he⟩ | ⟨-, -, -, he⟩ | ⟨-, -, -, he⟩ <;>
    rw [he] at ht <;> cases ht
  · obtain rfl := readsFrom_eq_nil hnone
    exact hl
  · cases hidle
  · exact absurd (readsFrom_eq_nil hnone) (Nat.ne_of_gt (seqLength_pos _))
  · cases hidle
  · exact absurd (readsFrom_eq_nil hnone) (by decide)

/-- Settles O28, by the limit check of the first byte, which no other idle end leaves unread. -/
theorem limitAtCursorReadsNothing : Obligations.LimitAtCursorReadsNothing :=
  ⟨fun _ _ _ hp hlimit =>
      ⟨limited_reads_nothing (opTick_decuc true) hp hlimit, limited_reads_nothing (opTick_decsc true) hp hlimit⟩,
    fun _ _ _ _ _ hop hp ht hidle hnone => limited_of_pastLimit (decode_idle_reads_nothing hop hp ht hidle hnone)⟩

/-! ### The checked decodes against the unchecked ones (R108) -/

section
variable {i i' : Instr} {lim signed : Bool} {s t : State} {r : Request} {rest : List HostMove} {v : Word} {c : Nat}

/-- Where a checked decode has `OK = 1`, its sequence is readable and the advanced cursor representable, so that the
unchecked decode responds too. -/
theorem unchecked_of_ok (hop : opTick i = decodeTick i true lim signed)
    (hop' : opTick i' = decodeTick i' false false signed) (hp : s.Presents r rest) (ht : exec i s = .next t)
    (hr : t.response = some (decodeResponse true signed true v c)) :
    ∃ t', exec i' s = .next t' ∧ t'.response = some (decodeResponse false signed true v c) := by
  rw [exec_presented i s r rest hp, hop] at ht
  cases ht
  obtain ⟨hreach, hok, hfit⟩ := (decodeRun_ok_iff i lim signed r rest s).mp ⟨v, c, hr⟩
  rw [decodeRun_responds i true lim signed r rest s hreach hok hfit] at hr
  refine ⟨_, unchecked_responds hop' hp ((reachesByte_checked lim r s _).mp hreach).1 hfit, ?_⟩
  cases signed <;> cases hr <;> rfl

/-- Where a checked decode with `OK = 0` has read five bytes, the limit admitted them and its sequence is five readable
bytes, so that the unchecked decode responds. -/
theorem unchecked_of_failed_five (hop : opTick i = decodeTick i true lim signed)
    (hop' : opTick i' = decodeTick i' false false signed) (hp : s.Presents r rest) (ht : exec i s = .next t)
    (hr : t.response = some (decodeResponse true signed false v c)) (hfive : t.trace.length = 5)
    (hfit : r.cursor + 5 < 2 ^ s.launch.addrWidth) :
    ∃ t', exec i' s = .next t' ∧
      t'.response = some (decodeResponse false signed true (placed signed (s.bytesFrom r.cursor) 5) (r.cursor + 5)) := by
  rw [exec_presented i s r rest hp, hop] at ht
  rcases decodeRun_cases i true lim signed r rest s with
    ⟨k, hk, -, -, he⟩ | ⟨k, -, -, -, -, he⟩ | ⟨-, -, -, he⟩ | ⟨-, -, -, he⟩ | ⟨h5, hreach, -, he⟩ <;>
    rw [he] at ht <;> cases ht
  · have hle := seqLength_le (s.bytesFrom r.cursor)
    have hkfive : k = 5 := (readsFrom_length r.cursor k).symm.trans hfive
    omega
  · cases hr
  · exact absurd hr.symm (decodeResponse_ok_ne_failed signed _ _ _ _)
  · cases hr
  · have he := unchecked_responds hop' hp (h5.symm ▸ ((reachesByte_checked lim r s 5).mp hreach).1) (h5.symm ▸ hfit)
    rw [h5] at he
    exact ⟨_, he, rfl⟩

end

/-- Settles O41: the condition of a checked response, or of five bytes read, is the unchecked decode's own. -/
theorem checkedAgreesWithUnchecked : Obligations.CheckedAgreesWithUnchecked :=
  fun lim _ _ _ hp =>
    ⟨fun _ _ _ => unchecked_of_ok (opTick_decuc lim) opTick_decu hp,
      fun _ _ _ => unchecked_of_ok (opTick_decsc lim) opTick_decs hp,
      fun _ _ _ => unchecked_of_failed_five (opTick_decuc lim) opTick_decu hp,
      fun _ _ _ => unchecked_of_failed_five (opTick_decsc lim) opTick_decs hp⟩

end Sys2Proof.Machine
end

section
/-!
PROOFS. The encoder and the size (42_encode.md): ENCU with each of its ends (R120), SIZEU (R121 to R123), and which values a
decode gives back of the bytes ENCU left, unsigned (R124) and signed (R125).
-/

namespace Sys2Proof.Machine

/-! ### ENCU and SIZEU -/

/-- Settles O15, by the three ends of ENCU's loop. -/
theorem encuRule : Obligations.EncuRule := by
  refine ⟨rfl, fun s r rest hp => ?_⟩
  rw [exec_presented .encu s r rest hp]
  exact ⟨fun hw hfit => congrArg _ (encuRun_responds r rest s hw hfit),
    fun k hk hw hno => congrArg _ (encuRun_unwritable r rest s k hk hw hno),
    fun hw hover => congrArg _ (encuRun_overflows r rest s hw hover)⟩

/-- Settles O16: SIZEU's loop has one end. -/
theorem sizeuRule : Obligations.SizeuRule :=
  ⟨rfl, fun _ _ _ => exec_sizeu_presented⟩

/-- Settles O44: an ENCU that responded has written all bytes of its form, and `COUNT` is their number. -/
theorem sizePredictsEncoder : Obligations.SizePredictsEncoder := by
  intro s t s' t' r r' rest rest' n hp hp' hvalue ht hidle ht' hn
  cases sizeu_response hp' ht' hn
  rw [encu_idle hp ht hidle, State.responded_trace, writesFrom_length, toNat_count, hvalue]

/-! ### ENCU's form as a sequence -/

theorem seqLength_canonicalByte (v : Word) : seqLength (canonicalByte v) = sizeByRange v := by
  have h5 := sizeByRange_le v
  obtain ⟨k, hk⟩ := Nat.exists_eq_add_one.mpr (sizeByRange_pos v)
  rw [hk]
  refine seqLength_eq (by omega) (fun j hj => ?_) ?_
  · rw [continues_canonicalByte, decide_eq_true (by omega)]
  · rw [continues_canonicalByte, decide_eq_false (by omega)]

theorem payload_canonicalByte (v : Word) (k : Nat) : payload (canonicalByte v k) = v.extractLsb' (7 * k) 7 := by
  apply BitVec.eq_of_getLsbD_eq
  intro i hi
  rw [payload, BitVec.getLsbD_extractLsb', Nat.zero_add, canonicalByte, BitVec.getLsbD_append, if_pos hi,
    decide_eq_true hi, Bool.true_and]

theorem lt_two_pow_sizeByRange (v : Word) : v.toNat < 2 ^ (7 * sizeByRange v) := by
  have h5 := sizeByRange_le v
  obtain ⟨k, hk⟩ := Nat.exists_eq_add_one.mpr (sizeByRange_pos v)
  rw [hk]
  exact (sizeByRange_le_iff v k (by omega)).mp hk.le

/-- The groups of ENCU's form, placed, are the value: it has no bit beyond them. -/
theorem groupsPlaced_canonicalByte (v : Word) : groupsPlaced (canonicalByte v) (sizeByRange v) = v := by
  apply BitVec.eq_of_getLsbD_eq
  intro j hj
  rw [getLsbD_groupsPlaced, decide_eq_true hj, Bool.true_and, payload_canonicalByte, BitVec.getLsbD_extractLsb',
    Nat.div_add_mod, decide_eq_true (Nat.mod_lt j (by decide)), Bool.true_and]
  by_cases hplaced : j < 7 * sizeByRange v
  · rw [decide_eq_true hplaced, Bool.true_and]
  · have hbeyond : v.toNat < 2 ^ j :=
      (lt_two_pow_sizeByRange v).trans_le (Nat.pow_le_pow_right (by decide) (by omega))
    rw [decide_eq_false hplaced, Bool.false_and, BitVec.getLsbD, Nat.testBit_lt_two_pow hbeyond]

/-- The fifth byte of ENCU's form passes a checked decode's check (R103). -/
theorem highNibble_canonicalByte_four {v : Word} (h5 : sizeByRange v = 5) : highNibble (canonicalByte v 4) = 0#4 := by
  have hlast := toNat_canonicalByte_last h5
  have h32 := v.isLt
  apply BitVec.eq_of_toNat_eq
  rw [highNibble, BitVec.extractLsb'_toNat, Nat.shiftRight_eq_div_pow, hlast, BitVec.toNat_ofNat]
  omega

/-! ### A decode of ENCU's form -/

/-- The bytes of ENCU's form of `v` stand in memory from `c` on. -/
def State.HoldsForm (s : State) (c : Nat) (v : Word) : Prop :=
  ∀ k, k < sizeByRange v → s.bytesFrom c k = canonicalByte v k

/-- The length of ENCU's form is the value's size, whatever follows it in memory. -/
theorem State.HoldsForm.seqLength_bytesFrom {s : State} {c : Nat} {v : Word} (h : s.HoldsForm c v) :
    seqLength (s.bytesFrom c) = sizeByRange v := by
  rw [← seqLength_canonicalByte v]
  exact seqLength_congr _ _ (by rwa [seqLength_canonicalByte])

/-- A decode of ENCU's form finds the value, its sign extended in a signed decode. -/
theorem State.HoldsForm.placed_bytesFrom {s : State} {c : Nat} {v : Word} (h : s.HoldsForm c v) (signed : Bool) :
    placed signed (s.bytesFrom c) (sizeByRange v) = decodeValue signed v (sizeByRange v) := by
  have hlength := seqLength_canonicalByte v
  have hplaced := placed_congr signed (canonicalByte v) (s.bytesFrom c) (by rwa [hlength])
  have hvalue := decodeValue_accumulated signed (canonicalByte v)
  rw [hlength] at hplaced hvalue
  rw [hplaced, ← hvalue, accumulated_eq_placedValue _ _ (sizeByRange_pos v) (sizeByRange_le v),
    placedValue_eq_groupsPlaced _ _ (sizeByRange_pos v) (sizeByRange_le v), groupsPlaced_canonicalByte]

section
variable {i : Instr} {lim signed : Bool} {s : State} {r : Request} {rest : List HostMove} {c : Nat} {v : Word}

/-- An unchecked decode of ENCU's form reads it and gives its value (R82, R83). -/
theorem unchecked_of_holdsForm (hop : opTick i = decodeTick i false false signed) (hp : s.Presents r rest)
    (hc : r.cursor = c) (hform : s.HoldsForm c v) (hread : s.ReadableRun c (sizeByRange v))
    (hfit : c + sizeByRange v < 2 ^ s.launch.addrWidth) :
    exec i s = .next (s.responded rest (readsFrom c (sizeByRange v))
      (decodeResponse false signed true (decodeValue signed v (sizeByRange v)) (c + sizeByRange v))) := by
  subst hc
  have he := unchecked_responds hop hp
  rw [hform.seqLength_bytesFrom, hform.placed_bytesFrom] at he
  exact he hread hfit

/-- A checked decode of ENCU's form within the limit gives its value with `OK = 1` (R100, R101). -/
theorem checked_of_holdsForm (hop : opTick i = decodeTick i true lim signed) (hp : s.Presents r rest)
    (hc : r.cursor = c) (hform : s.HoldsForm c v) (hread : s.ReadableRun c (sizeByRange v))
    (hlim : lim = true → c + sizeByRange v ≤ r.limit)
    (hfit : c + sizeByRange v < 2 ^ s.launch.addrWidth) :
    exec i s = .next (s.responded rest (readsFrom c (sizeByRange v))
      (decodeResponse true signed true (decodeValue signed v (sizeByRange v)) (c + sizeByRange v))) := by
  subst hc
  have he := checked_responds hop hp
  rw [hform.seqLength_bytesFrom, hform.placed_bytesFrom] at he
  refine he hread hlim (fun h5 => ?_) hfit
  rw [hform 4 (by omega)]
  exact highNibble_canonicalByte_four h5

end

/-! ### The unsigned round trip (R124) -/

/-- A state with the bytes an ENCU that responded has left holds its form. -/
theorem encu_idle_holdsForm {s t s' : State} {r : Request} {rest : List HostMove} (hwf : Memory.wf s.mem = true)
    (hp : s.Presents r rest) (ht : exec .encu s = .next t) (hidle : t.status = .idle)
    (hkept : ∀ k, k < sizeByRange r.value → s'.byteAt (r.cursor + k) = t.byteAt (r.cursor + k)) :
    s'.HoldsForm r.cursor r.value :=
  fun k hk => (hkept k hk).trans (encu_idle_bytesFrom hwf hp ht hidle k hk)

/-- An ENCU that responded has a representable cursor behind its bytes (R144). -/
theorem encu_idle_fits {s t : State} {r : Request} {rest : List HostMove} (hp : s.Presents r rest)
    (ht : exec .encu s = .next t) (hidle : t.status = .idle) :
    r.cursor + sizeByRange r.value < 2 ^ s.launch.addrWidth := by
  rw [exec_presented .encu s r rest hp, opTick] at ht
  rcases encuRun_result r rest s with ⟨k, -, -, -, he⟩ | ⟨-, hfit, -⟩ | ⟨-, -, he⟩
  · rw [he] at ht; cases ht; cases hidle
  · exact hfit
  · rw [he] at ht; cases ht; cases hidle

/-- Settles O45: the bytes ENCU left are its form, of which an unsigned decode, checked or not, finds the value. -/
theorem unsignedRoundTrip : Obligations.UnsignedRoundTrip := by
  intro s t s' r r' rest rest' hwf hp ht hidle hp' hcursor hwidth hread hkept
  have hform := encu_idle_holdsForm hwf hp ht hidle hkept
  have hfit := encu_idle_fits hp ht hidle
  rw [← hwidth] at hfit
  exact ⟨unchecked_of_holdsForm opTick_decu hp' hcursor hform hread hfit,
    fun lim hlim => checked_of_holdsForm (opTick_decuc lim) hp' hcursor hform hread hlim hfit⟩

/-! ### The signed round trip (R125) -/

/-- The top bit of a value of `7n` bits, as a bound. -/
theorem signBit_iff {v : Word} {n : Nat} (h1 : 1 ≤ n) (hlt : v.toNat < 2 ^ (7 * n)) :
    v.getLsbD (7 * n - 1) = true ↔ 2 ^ (7 * n - 1) ≤ v.toNat := by
  have hpow : 2 ^ (7 * n) = 2 ^ (7 * n - 1) * 2 := by rw [← Nat.pow_succ]; congr 1; omega
  rw [hpow] at hlt
  rw [BitVec.getLsbD, Nat.testBit_eq_decide_div_mod_eq, decide_eq_true_iff,
    Nat.mod_eq_of_lt (Nat.div_lt_of_lt_mul hlt)]
  have hpos := Nat.two_pow_pos (7 * n - 1)
  rw [Nat.div_eq_iff hpos]
  omega

/-- With the sign bit set, the sign extension is the negative number `v - 2^(7n)` (R81). -/
theorem toInt_signExtendGroups {v : Word} {n : Nat} (h1 : 1 ≤ n) (h4 : n ≤ 4) (hlt : v.toNat < 2 ^ (7 * n))
    (hsign : v.getLsbD (7 * n - 1) = true) : (signExtendGroups v n).toInt = (v.toNat : Int) - 2 ^ (7 * n) := by
  have hmsb : (v.setWidth (7 * n)).msb = true := by
    rw [BitVec.msb_eq_getLsbD_last, BitVec.getLsbD_setWidth, hsign, decide_eq_true (by omega), Bool.true_and]
  rw [signExtendGroups_eq_signExtend h1 h4 hlt, BitVec.toInt_signExtend_of_le (by omega), BitVec.toInt_eq_msb_cond,
    if_pos hmsb, BitVec.toNat_setWidth, Nat.mod_eq_of_lt hlt]
  norm_cast

/-- Outside its ranges the signed round trip gives a negative number (R125). -/
theorem toInt_signExtendGroups_neg {v : Word} {n : Nat} (h1 : 1 ≤ n) (h4 : n ≤ 4) (hlt : v.toNat < 2 ^ (7 * n))
    (hsign : v.getLsbD (7 * n - 1) = true) : (signExtendGroups v n).toInt < 0 := by
  rw [toInt_signExtendGroups h1 h4 hlt hsign]
  exact Int.sub_neg_of_lt (by exact_mod_cast hlt)

/-- A value of fewer than five groups is not negative. -/
theorem toInt_eq_toNat_of_sizeByRange {v : Word} (h4 : sizeByRange v ≤ 4) : v.toInt = v.toNat := by
  have hlt := (sizeByRange_le_iff v 3 (by decide)).mp h4
  exact BitVec.toInt_eq_toNat_of_lt (by omega)

/-- The signed round trip gives the value back exactly where its sign bit is clear or it fills the word (R125). -/
theorem signExtendGroups_eq_self_iff (v : Word) :
    signExtendGroups v (sizeByRange v) = v ↔
      sizeByRange v = 5 ∨ v.getLsbD (7 * sizeByRange v - 1) = false := by
  have h1 := sizeByRange_pos v
  have h5 := sizeByRange_le v
  have hlt := lt_two_pow_sizeByRange v
  refine ⟨fun hself => ?_, signExtendGroups_eq_self h1 h5 hlt⟩
  by_contra hnot
  obtain ⟨hfive, hsign⟩ := not_or.mp hnot
  have hneg := toInt_signExtendGroups_neg h1 (by omega) hlt (Bool.eq_true_of_not_eq_false hsign)
  rw [hself, toInt_eq_toNat_of_sizeByRange (by omega)] at hneg
  omega

/-- The values with the sign bit of their last group set, by size (R122, R125). -/
theorem signBit_ranges (v : Word) :
    (sizeByRange v ≠ 5 ∧ v.getLsbD (7 * sizeByRange v - 1) = true) ↔
      (64 ≤ v.toNat ∧ v.toNat ≤ 127) ∨ (8192 ≤ v.toNat ∧ v.toNat ≤ 16383) ∨
        (1048576 ≤ v.toNat ∧ v.toNat ≤ 2097151) ∨ (134217728 ≤ v.toNat ∧ v.toNat ≤ 268435455) := by
  rw [signBit_iff (sizeByRange_pos v) (lt_two_pow_sizeByRange v)]
  unfold sizeByRange
  repeat' split
  all_goals omega

theorem sizeByRange_eq_five_of_toInt {v : Word} (h : v.toInt < 0 ∨ 2 ^ 28 ≤ v.toInt) : sizeByRange v = 5 := by
  have h5 := sizeByRange_le v
  by_contra hfive
  have h4 : sizeByRange v ≤ 4 := by omega
  have hlt := (sizeByRange_le_iff v 3 (by decide)).mp h4
  rw [toInt_eq_toNat_of_sizeByRange h4] at h
  omega

/-- Settles O46: a DECS of ENCU's form gives the sign extension of the value's groups. -/
theorem signedRoundTripOnItsRanges : Obligations.SignedRoundTripOnItsRanges := by
  intro s t s' r r' rest rest' hwf hp ht hidle hp' hcursor hwidth hread hkept
  have hform := encu_idle_holdsForm hwf hp ht hidle hkept
  have hfit := encu_idle_fits hp ht hidle
  rw [← hwidth] at hfit
  have hself := signExtendGroups_eq_self_iff r.value
  have hlost : signExtendGroups r.value (sizeByRange r.value) ≠ r.value ↔
      sizeByRange r.value ≠ 5 ∧ r.value.getLsbD (7 * sizeByRange r.value - 1) = true := by
    rw [Ne, hself, not_or, Bool.not_eq_false]
  refine ⟨_, unchecked_of_holdsForm opTick_decs hp' hcursor hform hread hfit, hself,
    hlost.trans (signBit_ranges r.value), fun hne => ?_, sizeByRange_eq_five_of_toInt⟩
  obtain ⟨hfive, hsign⟩ := hlost.mp hne
  have h1 := sizeByRange_pos r.value
  have h5 := sizeByRange_le r.value
  have hlt := lt_two_pow_sizeByRange r.value
  exact ⟨toInt_signExtendGroups h1 (by omega) hlt hsign, toInt_signExtendGroups_neg h1 (by omega) hlt hsign⟩

end Sys2Proof.Machine
end

section
/-!
PROOFS. The model faults (60_exceptions.md): which operation records which fault on which condition (R142), that a fault
is sticky (R143) and that the limit check comes before the read (R145).
-/

namespace Sys2Proof.Machine

/-! ### The faults of an operation -/

section
variable {i : Instr} {s t : State} {r : Request} {rest : List HostMove} {f : Fault}

/-- A decode that faults has met an unreadable byte that its limit admits (R45), or the top of the address space
(R144). -/
theorem decode_fault (hop : readsMemory i = true) (hp : s.Presents r rest) (ht : exec i s = .next t)
    (hf : t.status = .faulted f) :
    t.response = none ∧
      ((∃ a, f = .memReadFault r.cmd a ∧ pastLimit (decodeForm i).1 (decodeForm i).2.1 r a = false ∧
          s.canRead a = false) ∨
        (f = .cursorOverflow r.cmd (r.cursor + t.trace.length) ∧
          2 ^ s.launch.addrWidth ≤ r.cursor + t.trace.length)) := by
  rw [exec_presented i s r rest hp, opTick_decode i hop] at ht
  rcases decodeRun_cases i (decodeForm i).1 (decodeForm i).2.1 (decodeForm i).2.2 r rest s with
    ⟨k, -, -, -, he⟩ | ⟨k, -, -, hl, hno, he⟩ | ⟨-, -, -, he⟩ | ⟨-, -, hover, he⟩ | ⟨-, -, -, he⟩ <;>
    rw [he] at ht <;> cases ht <;> cases hf
  · exact ⟨rfl, .inl ⟨_, rfl, hl, hno⟩⟩
  · rw [State.stopped_trace, readsFrom_length]
    exact ⟨rfl, .inr ⟨rfl, hover⟩⟩

/-- An ENCU that faults has met an unwritable byte, behind the bytes it has stored (R46), or the top of the address
space (R144). -/
theorem encu_fault (hp : s.Presents r rest) (ht : exec .encu s = .next t) (hf : t.status = .faulted f) :
    t.response = none ∧
      ((∃ k, f = .memWriteFault r.cmd (r.cursor + k) ∧ s.canWrite (r.cursor + k) = false ∧
          t.mem = Memory.writeRun s.mem r.cursor (canonicalByte r.value) k) ∨
        (f = .cursorOverflow r.cmd (r.cursor + t.trace.length) ∧
          2 ^ s.launch.addrWidth ≤ r.cursor + t.trace.length)) := by
  rw [exec_presented .encu s r rest hp, opTick] at ht
  rcases encuRun_result r rest s with ⟨k, -, -, hno, he⟩ | ⟨-, -, he⟩ | ⟨-, hover, he⟩ <;>
    rw [he] at ht <;> cases ht <;> cases hf
  · exact ⟨rfl, .inl ⟨k, rfl, hno, rfl⟩⟩
  · rw [State.stopped_trace, writesFrom_length]
    exact ⟨rfl, .inr ⟨rfl, hover⟩⟩

/-- SIZEU has no row in R142's table. -/
theorem sizeu_never_faults (hp : s.Presents r rest) (ht : exec .sizeu s = .next t) : t.status ≠ .faulted f := by
  rw [exec_sizeu_presented hp] at ht
  cases ht
  exact Status.noConfusion

/-- An operation that faults delivers no response (R143). -/
theorem exec_fault_response (hp : s.Presents r rest) (ht : exec i s = .next t) (hf : t.status = .faulted f) :
    t.response = none := by
  rcases Instr_cases i with hop | rfl | rfl
  · exact (decode_fault hop hp ht hf).1
  · exact (encu_fault hp ht hf).1
  · exact absurd hf (sizeu_never_faults hp ht)

/-- R142's rows for a fault that an operation records: the operation, the info and the condition. -/
theorem exec_fault (hp : s.Presents r rest) (ht : exec i s = .next t) (hf : t.status = .faulted f) :
    (∃ a, f = .memReadFault r.cmd a ∧ readsMemory i = true ∧ s.canRead a = false) ∨
      (∃ a, f = .memWriteFault r.cmd a ∧ i = .encu ∧ s.canWrite a = false) ∨
      (f = .cursorOverflow r.cmd (r.cursor + t.trace.length) ∧ i ≠ .sizeu ∧
        2 ^ s.launch.addrWidth ≤ r.cursor + t.trace.length) := by
  rcases Instr_cases i with hop | rfl | rfl
  · obtain ⟨-, ⟨a, he, -, hno⟩ | ⟨he, hover⟩⟩ := decode_fault hop hp ht hf
    · exact .inl ⟨a, he, hop, hno⟩
    · have hi : i ≠ .sizeu := by rintro rfl; cases hop
      exact .inr (.inr ⟨he, hi, hover⟩)
  · obtain ⟨-, ⟨k, he, hno, -⟩ | ⟨he, hover⟩⟩ := encu_fault hp ht hf
    · exact .inr (.inl ⟨_, he, rfl, hno⟩)
    · exact .inr (.inr ⟨he, Instr.noConfusion, hover⟩)
  · exact absurd hf (sizeu_never_faults hp ht)

/-! ### The faults of a step -/

/-- A step that answers a presented request runs the operation it names, or stops at its illegal command (R145). -/
theorem step_presented (hp : s.Presents r rest) (ht : step s = .next t) :
    (∃ i, decode r.cmd = .ok i ∧ exec i s = .next t) ∨
      ∃ e, decode r.cmd = .error e ∧ t = s.stopped rest [] (.illegalCommand r.cmd) := by
  have hpresent : s.presentIdle r rest = .next t := by
    obtain ⟨hs, hm⟩ := hp
    rcases step_next s t ht with ⟨op, q, x, hbusy, -⟩ | ⟨-, hnil, -⟩ | ⟨m, rest', -, hm', -, ht⟩ |
      ⟨g, m, rest', hg, -⟩
    · exact nomatch hs.symm.trans hbusy
    · exact nomatch hm.symm.trans hnil
    · cases hm.symm.trans hm'
      exact ht
    · exact nomatch hs.symm.trans hg
  cases hcmd : decode r.cmd with
  | ok i => exact .inl ⟨i, rfl, (s.presentIdle_legal r rest i hcmd).symm.trans hpresent⟩
  | error e =>
    rw [s.presentIdle_illegal r rest e hcmd] at hpresent
    cases hpresent
    exact .inr ⟨e, rfl, rfl⟩

/-- Just a reset ends a fault: every other move leaves the record and the response (R143). -/
theorem State.moveFaulted_cases (s : State) (m : HostMove) (rest : List HostMove) :
    ((s.moveFaulted m rest).status = s.status ∧ (s.moveFaulted m rest).response = s.response) ∨
      ((s.moveFaulted m rest).status = .idle ∧ (m = .reset ∨ ∃ r, m = .resetDuring r)) := by
  cases m with
  | request r => exact .inl ⟨rfl, rfl⟩
  | write a b => exact .inl ⟨rfl, rfl⟩
  | reset => exact .inr ⟨rfl, .inl rfl⟩
  | resetDuring r => exact .inr ⟨rfl, .inr ⟨r, rfl⟩⟩

/-- A step from a recorded fault is the host's next move. -/
theorem step_from_fault (hs : s.status = .faulted f) (ht : step s = .next t) :
    ∃ m rest, s.moves = m :: rest ∧ t = s.moveFaulted m rest := by
  rcases step_next s t ht with ⟨op, r, x, hbusy, -⟩ | ⟨hidle, -⟩ | ⟨m, rest, hidle, -⟩ |
    ⟨g, m, rest, -, hm, -, he⟩
  · exact nomatch hs.symm.trans hbusy
  · exact nomatch hs.symm.trans hidle
  · exact nomatch hs.symm.trans hidle
  · exact ⟨m, rest, hm, he⟩

end

/-! ### The statements -/

/-- Settles O29: no operation records `IllegalCommand`, so the step that does so has met a command that names none. -/
theorem faultsAreAsTabled : Obligations.FaultsAreAsTabled := by
  refine ⟨fun i s t r rest f => exec_fault, fun s t r rest cmd hp ht hf => ?_, fun _ _ => ⟨rfl, rfl, rfl, rfl⟩⟩
  rcases step_presented hp ht with ⟨i, -, ht⟩ | ⟨e, hcmd, rfl⟩
  · rcases exec_fault hp ht hf with ⟨a, he, -⟩ | ⟨a, he, -⟩ | ⟨he, -⟩ <;> cases he
  · cases hf
    exact ⟨rfl, fun i hi => nomatch hcmd.symm.trans hi⟩

/-- Settles O30: the byte a decode faults at has passed the limit check. -/
theorem limitCheckComesBeforeReadFault : Obligations.LimitCheckComesBeforeReadFault := by
  intro i s t r rest cmd a hi hp ht hf
  have hop : readsMemory i = true := by rcases hi with rfl | rfl <;> rfl
  obtain ⟨-, ⟨b, he, hl, -⟩ | ⟨he, -⟩⟩ := decode_fault hop hp ht hf <;> cases he
  have hlimited : pastLimit true true r a = false := by rcases hi with rfl | rfl <;> exact hl
  rw [pastLimit_limited] at hlimited
  exact Nat.lt_of_not_le (of_decide_eq_false hlimited)

/-- Settles O31, by what a presented request may end in, the host's moves at a recorded fault, and the bytes stored
before an unwritable one. -/
theorem faultIsSticky : Obligations.FaultIsSticky := by
  refine ⟨fun s t r rest f hp ht hf => ?_, fun s f r rest hs hm hwf => step_faulted s f _ rest hs hm hwf,
    fun s t f hs ht => ?_, fun s t r rest cmd k hwf hp ht hf j hj => ?_⟩
  · rcases step_presented hp ht with ⟨i, -, ht⟩ | ⟨e, -, rfl⟩
    · exact exec_fault_response hp ht hf
    · rfl
  · obtain ⟨m, rest, hm, rfl⟩ := step_from_fault hs ht
    rw [hm, ← hs]
    refine (s.moveFaulted_cases m rest).imp_right fun ⟨hidle, hreset⟩ => ⟨hidle, rest, ?_⟩
    rcases hreset with rfl | ⟨r, rfl⟩
    · exact .inl rfl
    · exact .inr ⟨r, rfl⟩
  · obtain ⟨-, ⟨n, he, -, hmem⟩ | ⟨he, -⟩⟩ := encu_fault hp ht hf
    · obtain ⟨-, rfl⟩ : cmd = r.cmd ∧ k = n := by simpa using he
      rw [State.byteAt, hmem, Memory.read_writeRun_inside s.mem r.cursor k j _ hwf hj]
    · cases he

end Sys2Proof.Machine
end

section
/-!
PROOFS. Reset and the host's own moves (70_reset_and_hazards.md): every operation ends (R163), what a reset leaves of the
codec (R160) and of an ENCU it cuts short (R161), and what a step answers when no move can be made.
-/

namespace Sys2Proof.Machine

/-! ### Every operation ends -/

/-- The codec is not `Busy`. -/
def State.Ended (s : State) : Prop := ∀ op r t, s.status ≠ .busy op r t

theorem State.ended_of_idle {s : State} (h : s.status = .idle) : s.Ended :=
  fun _ _ _ hs => nomatch h.symm.trans hs

theorem State.ended_of_faulted {s : State} {f : Fault} (h : s.status = .faulted f) : s.Ended :=
  fun _ _ _ hs => nomatch h.symm.trans hs

theorem State.finish_ended (s : State) (r : Request) (n : Nat) (resp : Nat → Response) : (s.finish r n resp).Ended := by
  rcases s.finish_cases r n resp with ⟨-, he⟩ | ⟨-, he⟩ <;> rw [he]
  · exact State.ended_of_idle rfl
  · exact State.ended_of_faulted rfl

/-- How many more iterations an operation can make from a transient state on: a decode reads a byte in each and stops at
the fifth, ENCU and SIZEU make one for each group left of the value. -/
def Transient.remaining (op : Instr) (t : Transient) : Nat :=
  if readsMemory op then 4 - t.i + 1 else sizeByRange t.rem

theorem Transient.remaining_pos (op : Instr) (t : Transient) : 1 ≤ t.remaining op := by
  unfold Transient.remaining
  split
  · exact Nat.le_add_left 1 _
  · exact sizeByRange_pos t.rem

theorem Transient.remaining_le (op : Instr) (t : Transient) : t.remaining op ≤ Config.maxBytes := by
  unfold Transient.remaining Config.maxBytes
  split
  · omega
  · exact sizeByRange_le t.rem

/-- A group shifted out of a value that has more leaves one group less. -/
theorem sizeByRange_shift_lt {v : Word} (h : v >>> 7 ≠ 0#32) : sizeByRange (v >>> 7) < sizeByRange v := by
  have h7 : (v >>> 7).toNat = v.toNat / 2 ^ 7 := toNat_shifted v 1
  have hpos : (v >>> 7).toNat ≠ 0 := fun h0 => h (BitVec.eq_of_toNat_eq h0)
  have h32 := v.isLt
  unfold sizeByRange
  rw [h7] at hpos ⊢
  repeat' split
  all_goals omega

/-- An iteration that leaves the codec `Busy` leaves fewer to make. -/
theorem opTick_remaining_lt {op op' : Instr} {r r' : Request} {t t' : Transient} {s : State}
    (h : (opTick op r t s).status = .busy op' r' t') : t'.remaining op < t.remaining op := by
  have hshift (hop : readsMemory op = false) (hz : t.rem >>> 7 ≠ 0#32) :
      Transient.remaining op { t with rem := t.rem >>> 7, i := t.i + 1 } < t.remaining op := by
    simpa [Transient.remaining, hop] using sizeByRange_shift_lt hz
  rcases Instr_cases op with hop | rfl | rfl
  · rw [opTick_decode op hop] at h
    rcases decodeTick_cases op _ _ _ r t s _ rfl with
      ⟨-, hu⟩ | ⟨-, hu⟩ | ⟨-, ⟨h4, hu⟩ | ⟨n, v, -, hu⟩ | ⟨-, hu⟩⟩ <;> rw [hu] at h
    · cases h
    · cases h
    · cases h
      simp only [Transient.remaining, hop, if_true]
      omega
    · exact absurd h (State.finish_ended _ r n _ _ _ _)
    · cases h
  · rcases encuTick_cases r t s _ rfl with ⟨-, hu⟩ | ⟨-, b, hu | ⟨hz, hu⟩⟩ <;> rw [opTick, hu] at h
    · cases h
    · exact absurd h (State.finish_ended _ r _ _ _ _ _)
    · cases h
      exact hshift rfl hz
  · rw [opTick, sizeuTick] at h
    split at h
    · cases h
    · rename_i hz
      cases h
      exact hshift rfl hz

/-- A run of as many iterations as remain ends the operation. -/
theorem runBusy_ended (op : Instr) (n : Nat) (s : State)
    (h : ∀ op' r t, s.status = .busy op' r t → t.remaining op ≤ n) : (runBusy (opTick op) n s).Ended := by
  induction n generalizing s with
  | zero => exact fun op' r t hs => absurd (h op' r t hs) (Nat.not_le_of_lt (t.remaining_pos op))
  | succ n ih =>
    cases hs : s.status with
    | idle => rw [runBusy_idle _ _ s hs]; exact State.ended_of_idle hs
    | faulted f => rw [runBusy_faulted _ _ s f hs]; exact State.ended_of_faulted hs
    | busy op' r t =>
      rw [runBusy_busy _ n s op' r t hs]
      exact ih _ fun _ _ _ ht => Nat.le_of_lt_succ ((opTick_remaining_lt ht).trans_le (h op' r t hs))

/-- Five iterations end any operation, from any state (R163). -/
theorem runBusy_maxBytes_ended (op : Instr) (s : State) : (runBusy (opTick op) Config.maxBytes s).Ended :=
  runBusy_ended op _ s fun _ _ t _ => t.remaining_le op

theorem State.goOn_ended (op : Instr) (s : State) : (s.goOn op).Ended := by
  rcases s.goOn_cases op with ⟨rest, -, he⟩ | he <;> rw [he]
  · exact State.ended_of_idle rfl
  · exact runBusy_maxBytes_ended op s

section
variable {i : Instr} {s t : State} {r : Request} {rest : List HostMove}

theorem exec_ended (ht : exec i s = .next t) : t.Ended := by
  obtain ⟨r, rest, hp⟩ := exec_next_presents i s t ht
  rw [exec_presented i s r rest hp] at ht
  cases ht
  exact runBusy_maxBytes_ended i _

/-- An operation that returns to `Idle` has responded (R163). -/
theorem exec_idle_response (hp : s.Presents r rest) (ht : exec i s = .next t) (hidle : t.status = .idle) :
    ∃ resp, t.response = some resp := by
  rcases Instr_cases i with hop | rfl | rfl
  · rw [exec_presented i s r rest hp, opTick_decode i hop] at ht
    rcases decodeRun_cases i (decodeForm i).1 (decodeForm i).2.1 (decodeForm i).2.2 r rest s with
      ⟨k, -, -, -, he⟩ | ⟨k, -, -, -, -, he⟩ | ⟨-, -, -, he⟩ | ⟨-, -, -, he⟩ | ⟨-, -, -, he⟩ <;>
      rw [he] at ht <;> cases ht
    · exact ⟨_, rfl⟩
    · cases hidle
    · exact ⟨_, rfl⟩
    · cases hidle
    · exact ⟨_, rfl⟩
  · rw [encu_idle hp ht hidle]
    exact ⟨_, rfl⟩
  · rw [exec_sizeu_presented hp] at ht
    cases ht
    exact ⟨_, rfl⟩

theorem State.moveFaulted_ended {f : Fault} (hs : s.status = .faulted f) (m : HostMove) :
    (s.moveFaulted m rest).Ended := by
  rcases s.moveFaulted_cases m rest with ⟨hst, -⟩ | ⟨hidle, -⟩
  · exact State.ended_of_faulted (hst.trans hs)
  · exact State.ended_of_idle hidle

theorem State.presentThenReset_ended (s : State) (r : Request) (rest : List HostMove) :
    (s.presentThenReset r rest).Ended := by
  cases hcmd : decode r.cmd with
  | ok i => rw [s.presentThenReset_legal r rest i hcmd]; exact State.ended_of_idle rfl
  | error e => rw [s.presentThenReset_illegal r rest e hcmd]; exact State.ended_of_idle rfl

/-- No step leaves the codec `Busy`: the model's step size (notes/assumptions/6.md). -/
theorem step_ended (ht : step s = .next t) : t.Ended := by
  rcases step_next s t ht with ⟨op, r, x, -, rfl⟩ | ⟨hs, -, rfl⟩ | ⟨m, rest, hs, hm, -, hmove⟩ |
    ⟨f, m, rest, hs, -, -, rfl⟩
  · exact s.goOn_ended op
  · exact State.ended_of_idle hs
  · cases m with
    | request r =>
      rcases step_presented ⟨hs, hm⟩ ht with ⟨i, -, hrun⟩ | ⟨e, -, rfl⟩
      · exact exec_ended hrun
      · exact State.ended_of_faulted rfl
    | write a b => cases hmove; exact State.ended_of_idle hs
    | reset => cases hmove; exact State.ended_of_idle rfl
    | resetDuring r => cases hmove; exact s.presentThenReset_ended r rest
  · exact State.moveFaulted_ended hs m

end

/-- Settles O24: five iterations end an operation, since each that goes on leaves fewer to make. -/
theorem everyOperationEnds : Obligations.EveryOperationEnds := by
  refine ⟨fun i s r rest hp => ?_, fun s t op r x ht => step_ended ht op r x⟩
  have ht := exec_presented i s r rest hp
  refine ⟨_, ht, (accessesAscendAtMostFive i s _ r rest hp ht).1, ?_⟩
  rcases State.idle_or_faulted _ (exec_ended ht) with hidle | ⟨f, hf⟩
  · exact .inl ⟨hidle, exec_idle_response hp ht hidle⟩
  · exact .inr ⟨f, hf, exec_fault_response hp ht hf⟩

/-! ### Reset -/

/-- A reset is made at an `Idle` and at a `Faulted` codec alike (R160). -/
theorem step_reset {s : State} {rest : List HostMove} (hs : s.Ended) (hm : s.moves = .reset :: rest) :
    step s = .next (State.hostReset { s with moves := rest }) := by
  rcases s.idle_or_faulted hs with hst | ⟨f, hst⟩
  · rw [step_idle s .reset rest hst hm rfl]; rfl
  · rw [step_faulted s f .reset rest hst hm rfl]; rfl

/-- Settles O32: the reset leaves an `Idle` codec, which runs the request presented to it. -/
theorem resetClearsTheCodec : Obligations.ResetClearsTheCodec := by
  intro s rest hs hm
  exact ⟨_, step_reset hs hm, rfl, rfl, rfl, rfl, rfl,
    fun r rest' i hrest hwf hcmd => stepRunsPresentedRequest _ r rest' i ⟨rfl, hrest⟩ hwf hcmd⟩

/-! ### A reset while `Busy` -/

@[simp] theorem State.finish_moves (s : State) (r : Request) (n : Nat) (resp : Nat → Response) :
    (s.finish r n resp).moves = s.moves := by
  rcases s.finish_cases r n resp with ⟨-, he⟩ | ⟨-, he⟩ <;> rw [he] <;> rfl

@[simp] theorem State.invalid_moves (s : State) (resp : Word → Nat → Response) :
    (s.invalid resp).moves = s.moves := rfl

@[simp] theorem State.afterRead_moves (s : State) (a : Nat) : (s.afterRead a).moves = s.moves := rfl

@[simp] theorem State.afterWrite_moves (s : State) (a : Nat) (b : Byte) : (s.afterWrite a b).moves = s.moves := rfl

/-- The host makes no move during an iteration (R53). -/
theorem opTick_moves (op : Instr) (r : Request) (t : Transient) (s : State) : (opTick op r t s).moves = s.moves := by
  rcases Instr_cases op with hop | rfl | rfl
  · rw [opTick_decode op hop]
    rcases decodeTick_cases op _ _ _ r t s _ rfl with
      ⟨-, hu⟩ | ⟨-, hu⟩ | ⟨-, ⟨-, hu⟩ | ⟨n, v, -, hu⟩ | ⟨-, hu⟩⟩ <;> rw [hu] <;> simp
  · rcases encuTick_cases r t s _ rfl with ⟨-, hu⟩ | ⟨-, b, hu | ⟨-, hu⟩⟩ <;> rw [opTick, hu] <;> simp
  · rw [opTick, sizeuTick]
    split <;> rfl

theorem State.resetWhileBusy_moves (op : Instr) (s : State) : (s.resetWhileBusy (opTick op)).moves = s.moves :=
  runBusy_keeps (opTick op) (fun u => u.moves = s.moves) (fun u _ r t _ hu => (opTick_moves op r t u).trans hu) _ _ rfl

/-- One iteration of ENCU with `i` groups done: byte `i` of the canonical form is not writable, or it is written, as the
last or before more (R71, R120). -/
theorem encuTick_canonical {r : Request} {t : Transient} (s : State) (hrem : t.rem = r.value >>> (7 * t.i))
    (hi : t.i < sizeByRange r.value) :
    encuTick r t s = s.raise (.memWriteFault r.cmd (r.cursor + t.i)) ∨
      encuTick r t s = (s.afterWrite (r.cursor + t.i) (canonicalByte r.value t.i)).finish r (t.i + 1) .encu ∨
      (t.i + 1 < sizeByRange r.value ∧
        encuTick r t s = (s.afterWrite (r.cursor + t.i) (canonicalByte r.value t.i)).keepBusy .encu r
          { t with rem := r.value >>> (7 * (t.i + 1)), i := t.i + 1 }) := by
  have h5 := sizeByRange_le r.value
  have hfit := fitsGroup_shifted r.value t.i (by omega)
  cases hw : s.canWrite (r.cursor + t.i) with
  | false =>
    refine .inl ?_
    simp only [encuTick, State.memWrite_refused s _ _ hw, ite_self]
  | true =>
    refine .inr ?_
    rcases Nat.lt_or_ge (t.i + 1) (sizeByRange r.value) with hmore | hlast
    · rw [decide_eq_false (by omega)] at hfit
      refine .inr ⟨hmore, ?_⟩
      simp only [encuTick, hrem, hfit, State.memWrite_eq_afterWrite s _ _ hw, moreByte_shifted r.value t.i hmore,
        shifted_succ, Bool.false_eq_true, if_false]
    · rw [decide_eq_true hlast] at hfit
      refine .inl ?_
      simp only [encuTick, hrem, hfit, State.memWrite_eq_afterWrite s _ _ hw,
        lastByte_shifted r.value t.i (by omega), if_true]

/-- An ENCU of `r` that had `i` groups done in memory `m` has stored `k` more bytes in `s`; if it is still `Busy`, it goes
on from there. -/
structure State.HasStored (m : List Host.Cell) (r : Request) (i k : Nat) (s : State) : Prop where
  within : i + k ≤ sizeByRange r.value
  mem_eq : s.mem = Memory.writeRun m (r.cursor + i) (fun j => canonicalByte r.value (i + j)) k
  goes_on : ∀ op q t, s.status = .busy op q t →
    q = r ∧ t.i = i + k ∧ t.rem = r.value >>> (7 * (i + k)) ∧ i + k < sizeByRange r.value

/-- One iteration stores the next byte, unless it is not writable. -/
theorem State.HasStored.encuTick {m : List Host.Cell} {r q : Request} {i k : Nat} {s : State} {op : Instr}
    {t : Transient} (h : s.HasStored m r i k) (hs : s.status = .busy op q t) :
    ∃ k', (encuTick q t s).HasStored m r i k' := by
  obtain ⟨rfl, hi, hrem, hlt⟩ := h.goes_on op q t hs
  rw [← hi] at hrem hlt
  have hmem : Memory.write s.mem (q.cursor + t.i) (canonicalByte q.value t.i) =
      Memory.writeRun m (q.cursor + i) (fun j => canonicalByte q.value (i + j)) (k + 1) := by
    rw [Memory.writeRun, ← h.mem_eq, hi, Nat.add_assoc]
  rcases encuTick_canonical s hrem hlt with he | he | ⟨hmore, he⟩ <;> rw [he]
  · exact ⟨k, h.within, h.mem_eq, fun _ _ _ hb => nomatch hb⟩
  · exact ⟨k + 1, by omega, by simpa using hmem, fun _ _ _ hb => absurd hb (State.finish_ended _ _ _ _ _ _ _)⟩
  · refine ⟨k + 1, by omega, by simpa using hmem, fun _ _ _ hb => ?_⟩
    cases hb
    rw [← Nat.add_assoc, ← hi]
    exact ⟨rfl, rfl, rfl, hmore⟩

/-- An ENCU that is reset while `Busy` has stored some of the bytes it still had to, in ascending order (R161). -/
theorem State.resetWhileBusy_encu_mem {s : State} {op : Instr} {r : Request} {x : Transient}
    (hs : s.status = .busy op r x) (hx : x.Good .encu r) :
    ∃ k, x.i + k ≤ sizeByRange r.value ∧ (s.resetWhileBusy (opTick .encu)).mem =
      Memory.writeRun s.mem (r.cursor + x.i) (fun j => canonicalByte r.value (x.i + j)) k := by
  obtain ⟨-, -, hrem, hlt⟩ := hx
  have hstart : State.HasStored s.mem r x.i 0 { s with draws := s.draws + 1 } := by
    refine ⟨(hlt rfl).le, rfl, fun _ _ _ hb => ?_⟩
    cases hs.symm.trans hb
    exact ⟨rfl, rfl, hrem, hlt rfl⟩
  obtain ⟨k, hk⟩ := runBusy_keeps (opTick .encu) (fun u => ∃ k, u.HasStored s.mem r x.i k)
    (fun _ _ _ _ hb ⟨_, h⟩ => h.encuTick hb) (Config.freeIterations s.draws % (Config.maxBytes + 1)) _ ⟨0, hstart⟩
  exact ⟨k, hk.within, hk.mem_eq⟩

/-- Settles O33: both forms are the reset of a codec that is `Busy` with a good transient state, the first with the
initial one. -/
theorem resetWhileBusyKeepsSomeWrites : Obligations.ResetWhileBusyKeepsSomeWrites := by
  refine ⟨fun s r rest i hs hm hwf hcmd => ?_, fun s op r x rest hinv hs hm => ?_⟩
  · refine ⟨_, step_idle s (.resetDuring r) rest hs hm hwf, ?_⟩
    rw [s.presentThenReset_legal r rest i hcmd]
    refine ⟨rfl, rfl, State.resetWhileBusy_moves i _, fun hi => State.resetWhileBusy_mem i hi _, ?_⟩
    rintro rfl
    simpa [Transient.init] using
      State.resetWhileBusy_encu_mem (s.accept_status .encu r rest) (Transient.good_init .encu r)
  · obtain ⟨-, -, hgood, -⟩ : (Status.busy op r x).Good s.launch s.trace := hs ▸ hinv.status_good
    refine ⟨_, step_busy s op r x hs, ?_⟩
    rw [State.goOn, hm]
    refine ⟨rfl, rfl, State.resetWhileBusy_moves op _, fun hop => State.resetWhileBusy_mem op hop _, ?_⟩
    rintro rfl
    exact State.resetWhileBusy_encu_mem (s := { s with moves := rest }) hs hgood

/-! ### No move, or a malformed one -/

theorem step_idle_no_move {s : State} (hs : s.status = .idle) (hm : s.moves = []) : step s = .next s := by
  rw [step, State.advance, hs, hm]

theorem step_faulted_no_move {s : State} {f : Fault} (hs : s.status = .faulted f) (hm : s.moves = []) :
    step s = .fault f := by
  rw [step, State.advance, hs, hm]

/-- A malformed move is refused at an `Idle` and at a `Faulted` codec alike. -/
theorem step_malformed {s : State} {m : HostMove} {rest : List HostMove} (hs : s.Ended) (hm : s.moves = m :: rest)
    (hwf : m.wellFormed s.launch.addrWidth = false) : step s = .refused .malformedMove := by
  have hno : ¬ m.wellFormed s.launch.addrWidth = true := by rw [hwf]; exact Bool.false_ne_true
  rcases s.idle_or_faulted hs with hst | ⟨f, hst⟩
  · rw [step, State.advance, hst, hm]; exact if_neg hno
  · rw [step, State.advance, hst, hm]; exact if_neg hno

/-- Settles O35, by the step that has no move to make and the step that refuses one. -/
theorem runEndsWithTheHostsMoves : Obligations.RunEndsWithTheHostsMoves :=
  ⟨fun _ => step_idle_no_move, fun _ _ => step_faulted_no_move, fun _ _ _ => step_malformed⟩

end Sys2Proof.Machine
end
